-- ==== Sys2Proof/Word.lean ====
section
/-! DEFINITION. The widths of the engine's values (spec/00_scope.md R5). -/

namespace Sys2Proof

/-- The accumulator's width, and that of a response's data (R5 `ACC_W`). -/
abbrev Word := BitVec 16

/-- One byte of memory, of the stream, or of an 8-bit operand (R5 `BYTE_W`, `LEN_W`, `INIT_W`). -/
abbrev Byte := BitVec 8

/-- A byte address of the data memory (R5 `ADDR_W`, R25). -/
abbrev Addr := BitVec 16

/-- A command word (R5 `CMD_W`, R45). -/
abbrev CmdWord := BitVec 40

/-- A response word (R5 `RSP_W`, R58). -/
abbrev RspWord := BitVec 17

end Sys2Proof
end

