-- ==== Sys2Proof/Syntax.lean ====
section
/-! DEFINITION. The five commands (spec/30_encoding.md R53), and a line of their assembler syntax (R59). Every operand of
a command has exactly the width of its field, so every value of Instr is well formed; the operands of a line are plain
numbers and may not fit (WellFormed.lean). -/

namespace Sys2Proof

/-- A command, one constructor per row of spec/opcode_table.json. -/
inductive Instr where
  /-- SEED value (format S, R47, R63). -/
  | seed (value : Word)
  /-- UPDATE byte (format U, R48, R69). -/
  | update (byte : Byte)
  /-- CALCULATE, its operands in the word's order: initial, length, ptr (format C, R49, R80). -/
  | calculate (initial length : Byte) (ptr : Addr)
  /-- RESULT (format N, R50, R87). -/
  | result
  /-- RESULT_ARRAY ptr (format P, R51, R90). -/
  | resultArray (ptr : Addr)
  deriving DecidableEq, Repr

/-- The mnemonics of the opcode map (R53). -/
inductive Mnemonic where
  | SEED | UPDATE | CALCULATE | RESULT | RESULT_ARRAY
  deriving DecidableEq, Repr

/-- The mnemonic of a command. -/
def Instr.mnemonic : Instr → Mnemonic
  | .seed _          => .SEED
  | .update _        => .UPDATE
  | .calculate _ _ _ => .CALCULATE
  | .result          => .RESULT
  | .resultArray _   => .RESULT_ARRAY

/-- A line of assembler, its operands numbers in the line's own order: `CALCULATE initial, ptr, length` (R59). -/
inductive Line where
  | seed (value : Nat)
  | update (byte : Nat)
  | calculate (initial ptr length : Nat)
  | result
  | resultArray (ptr : Nat)
  deriving DecidableEq, Repr

end Sys2Proof
end

