-- ==== Sys2Proof/WellFormed.lean ====
section
/-! DEFINITION. When an assembler line stands for a word: "An operand that does not fit its field ... is an error of the
assembler, not a word" (spec/30_encoding.md R59). -/

namespace Sys2Proof

/-- Why the assembler refuses a line. -/
inductive LineError where
  /-- The value of SEED is over 16 bits. -/
  | seedValueTooWide
  /-- The byte of UPDATE is over 8 bits. -/
  | updateByteTooWide
  /-- The initial of CALCULATE is over 8 bits. -/
  | calculateInitialTooWide
  /-- The pointer of CALCULATE is over 16 bits. -/
  | calculatePtrTooWide
  /-- The length of CALCULATE is over 8 bits. -/
  | calculateLengthTooWide
  /-- The pointer of RESULT_ARRAY is over 16 bits. -/
  | resultArrayPtrTooWide
  deriving DecidableEq, Repr

/-- The first operand of the line that does not fit its field, if any. -/
def Line.error : Line → Option LineError
  | .seed value => if 2 ^ 16 ≤ value then some .seedValueTooWide else none
  | .update byte => if 2 ^ 8 ≤ byte then some .updateByteTooWide else none
  | .calculate initial ptr length =>
    if 2 ^ 8 ≤ initial then some .calculateInitialTooWide
    else if 2 ^ 16 ≤ ptr then some .calculatePtrTooWide
    else if 2 ^ 8 ≤ length then some .calculateLengthTooWide
    else none
  | .result => none
  | .resultArray ptr => if 2 ^ 16 ≤ ptr then some .resultArrayPtrTooWide else none

/-- Every operand of the line fits its field. -/
def Line.wellFormed (l : Line) : Bool := l.error.isNone

end Sys2Proof
end

