-- ==== Sys2Proof/Decode.lean ====
section
/-! DEFINITION. The command encoding (spec/30_encoding.md): the fields of a command word, the decoder (a total, stateless
function of the word, R57), then the encoder, the assembler and the opcode map, each written from the same tables. -/

namespace Sys2Proof

/-- `cmd_word[39:32]`, the opcode field (R46). -/
def opField (w : CmdWord) : BitVec 8 := w.extractLsb' 32 8

/-- `cmd_word[31:16]`: reserved in formats S and P (R47, R51). -/
def upperField (w : CmdWord) : BitVec 16 := w.extractLsb' 16 16

/-- `cmd_word[15:0]`: `value` of format S, `ptr` of formats C and P (R47, R49, R51). -/
def lowerField (w : CmdWord) : BitVec 16 := w.extractLsb' 0 16

/-- `cmd_word[31:8]`: reserved in format U (R48). -/
def aboveByteField (w : CmdWord) : BitVec 24 := w.extractLsb' 8 24

/-- `cmd_word[7:0]`: `byte` of format U (R48). -/
def byteField (w : CmdWord) : Byte := w.extractLsb' 0 8

/-- `cmd_word[31:24]`: `initial` of format C (R49). -/
def initialField (w : CmdWord) : Byte := w.extractLsb' 24 8

/-- `cmd_word[23:16]`: `length` of format C (R49). -/
def lengthField (w : CmdWord) : Byte := w.extractLsb' 16 8

/-- `cmd_word[31:0]`: the operand bits, all reserved in format N (R46, R50). -/
def operandField (w : CmdWord) : BitVec 32 := w.extractLsb' 0 32

/-- Why a word is no command (R54). -/
inductive Illegal where
  /-- `op` is 0x00 or 0x06 to 0xFF. -/
  | reservedOpcode (op : BitVec 8)
  /-- A command's opcode with a reserved operand bit that is not zero. -/
  | reservedBits (op : BitVec 8)
  deriving DecidableEq, Repr

/-- The decoder (R53, R54, R57): one of the five commands, or the reason the word is illegal. -/
def decode (w : CmdWord) : Except Illegal Instr :=
  if opField w = 0x01#8 then
    if upperField w = 0#16 then .ok (.seed (lowerField w)) else .error (.reservedBits (opField w))
  else if opField w = 0x02#8 then
    if aboveByteField w = 0#24 then .ok (.update (byteField w)) else .error (.reservedBits (opField w))
  else if opField w = 0x03#8 then
    .ok (.calculate (initialField w) (lengthField w) (lowerField w))
  else if opField w = 0x04#8 then
    if operandField w = 0#32 then .ok .result else .error (.reservedBits (opField w))
  else if opField w = 0x05#8 then
    if upperField w = 0#16 then .ok (.resultArray (lowerField w)) else .error (.reservedBits (opField w))
  else .error (.reservedOpcode (opField w))

/-- The word is one of the five commands. -/
def legal (w : CmdWord) : Bool := (decode w).isOk

/-- The encoder (R47 to R51, R59's table of words). -/
def encode : Instr → CmdWord
  | .seed value                  => 0x01#8 ++ 0x0000#16 ++ value
  | .update byte                 => 0x02#8 ++ 0x000000#24 ++ byte
  | .calculate initial length ptr => 0x03#8 ++ initial ++ length ++ ptr
  | .result                      => 0x04#8 ++ 0x00000000#32
  | .resultArray ptr             => 0x05#8 ++ 0x0000#16 ++ ptr

/-- The command that a line whose operands fit stands for (R59; log 21). -/
def Line.command : Line → Instr
  | .seed value                  => .seed (BitVec.ofNat 16 value)
  | .update byte                 => .update (BitVec.ofNat 8 byte)
  | .calculate initial ptr length =>
    .calculate (BitVec.ofNat 8 initial) (BitVec.ofNat 8 length) (BitVec.ofNat 16 ptr)
  | .result                      => .result
  | .resultArray ptr             => .resultArray (BitVec.ofNat 16 ptr)

/-- The assembler (R59): the line's word, or why there is none. -/
def Line.assemble (l : Line) : Except LineError CmdWord :=
  match l.error with
  | some e => .error e
  | none   => .ok (encode l.command)

/-- A row of the opcode map (R53): "A word is the command of a row exactly when (cmd_word & mask) = match". -/
structure OpcodeRow where
  mnemonic : Mnemonic
  pattern  : CmdWord
  mask     : CmdWord
  deriving DecidableEq, Repr

/-- The word is the command of the row. -/
def OpcodeRow.matches (r : OpcodeRow) (w : CmdWord) : Bool := decide (w &&& r.mask = r.pattern)

/-- The row of a mnemonic in R53's table. -/
def opcodeRow : Mnemonic → OpcodeRow
  | .SEED         => { mnemonic := .SEED,         pattern := 0x0100000000#40, mask := 0xFFFFFF0000#40 }
  | .UPDATE       => { mnemonic := .UPDATE,       pattern := 0x0200000000#40, mask := 0xFFFFFFFF00#40 }
  | .CALCULATE    => { mnemonic := .CALCULATE,    pattern := 0x0300000000#40, mask := 0xFF00000000#40 }
  | .RESULT       => { mnemonic := .RESULT,       pattern := 0x0400000000#40, mask := 0xFFFFFFFFFF#40 }
  | .RESULT_ARRAY => { mnemonic := .RESULT_ARRAY, pattern := 0x0500000000#40, mask := 0xFFFFFF0000#40 }

/-- The command word of `nbits` bits with value `w`, the bits above `nbits` zero. A command word is 40 parallel wires and
has no byte order (R62), so it is one number. -/
def tableWord (nbits w : Nat) : CmdWord := BitVec.ofNat 40 (w % 2 ^ nbits)

/-- What the decoder reads from the table's word `w` of `nbits` bits. -/
def decodeTableWord (nbits w : Nat) : Option Instr :=
  match decode (tableWord nbits w) with
  | .ok i    => some i
  | .error _ => none

end Sys2Proof
end

