-- ==== Sys2Proof/Config.lean ====
section
/-! DEFINITION. The parameters of one engine instance (spec/00_scope.md R5): the two build-time constants and the
platform's map of backed addresses. They are fixed for a build; State carries them so that every claim holds of every
instance (log 1). -/

namespace Sys2Proof

/-- One range of backed addresses, `first` to `last` inclusive, with what the platform lets the engine do there
(spec/20_memory.md R27; 92 D20 "with readable and writable where the platform distinguishes them"). -/
structure Region where
  first    : Addr
  last     : Addr
  readable : Bool
  writable : Bool
  deriving DecidableEq, Repr

/-- The region holds the address. -/
def Region.holds (r : Region) (a : Addr) : Bool :=
  decide (r.first.toNat ≤ a.toNat) && decide (a.toNat ≤ r.last.toNat)

/-- The instance's parameters. -/
structure Config where
  /-- `POLYNOM` (spec/10_state.md R14): any 16-bit value. -/
  polynom      : Word
  /-- `INITIAL_VALUE` (R15): any 16-bit value. -/
  initialValue : Word
  /-- `MemBacked` (spec/20_memory.md R27): an address that no region holds is not backed. -/
  map          : List Region
  deriving DecidableEq, Repr

/-- `MemBacked`: the address holds memory. What the engine may do there is said by `readable` and `writable`. -/
def Config.backed (c : Config) (a : Addr) : Bool :=
  c.map.any fun r => r.holds a

/-- The engine may read the byte at the address. -/
def Config.readable (c : Config) (a : Addr) : Bool :=
  c.map.any fun r => r.holds a && r.readable

/-- The engine may write the byte at the address. -/
def Config.writable (c : Config) (a : Addr) : Bool :=
  c.map.any fun r => r.holds a && r.writable

/-- The whole address space as one readable and writable region. DESIGN CHOICE (log 2, unsafe): the spec leaves
`MemBacked` open. -/
def Config.allBacked : List Region :=
  [{ first := 0x0000#16, last := 0xFFFF#16, readable := true, writable := true }]

/-- The instance with the default constants (R14, R15). -/
def Config.default : Config :=
  { polynom := 0x8005#16, initialValue := 0x0000#16, map := Config.allBacked }

end Sys2Proof
end

