-- ==== Sys2Proof/Machine/State.lean ====
section
/-! DEFINITION. The state of the closed machine: the engine (spec/10_state.md), the platform memory it reaches
(spec/20_memory.md) and the host that drives it (spec/70_reset_and_hazards.md R128, R130), as plain data. -/

namespace Sys2Proof.Machine

/-- The status of a response (R58). -/
inductive Status where
  /-- Bit value 0: every legal command. -/
  | ok
  /-- Bit value 1: an illegal word (R96). -/
  | illegal
  deriving DecidableEq, Repr

/-- A response (R58). -/
structure Response where
  status : Status
  data   : Word
  deriving DecidableEq, Repr

/-- One single-byte access on the memory port (R28, R29). -/
inductive Access where
  | read (addr : Addr)
  | write (addr : Addr) (value : Byte)
  deriving DecidableEq, Repr

/-- The operands of a CALCULATE under way and its byte index 0 to 255 (R18). -/
structure Buffer where
  ptr    : Addr
  length : Byte
  index  : Byte
  deriving DecidableEq, Repr

/-- The byte index 0 to 1 inside RESULT_ARRAY (R18): `out[0]` is the low byte, `out[1]` the high byte (R30). -/
inductive OutByte where
  | low
  | high
  deriving DecidableEq, Repr

/-- What the engine is doing: the hidden state of R18, nothing of which outlives the command. -/
inductive Phase where
  /-- No command in progress and no response waiting (R123). -/
  | idle
  /-- A command word has been transferred and is latched. -/
  | latched (w : CmdWord)
  /-- UPDATE: the next bit step takes bit `bit` of the byte. -/
  | updating (byte : Byte) (bit : Fin 8)
  /-- CALCULATE: the read of the byte at the index is offered, not yet transferred. -/
  | readRequest (buf : Buffer)
  /-- CALCULATE: the read has been transferred and is not complete. -/
  | readWait (buf : Buffer)
  /-- CALCULATE: the byte last read is being folded; the next bit step takes bit `bit`. -/
  | folding (buf : Buffer) (byte : Byte) (bit : Fin 8)
  /-- RESULT_ARRAY: the write of an output byte is offered, not yet transferred. -/
  | writeRequest (ptr : Addr) (out : OutByte)
  /-- RESULT_ARRAY: the write has been transferred and is not complete. -/
  | writeWait (ptr : Addr) (out : OutByte)
  /-- The command has finished and its response waits to be taken (`rsp_valid` = 1, R124). -/
  | responding (r : Response)
  deriving DecidableEq, Repr

/-- What happens next outside the engine (log 4): the host's moves, and the platform's late completion. -/
inductive Move where
  /-- The host sends a command word (R123). -/
  | send (w : CmdWord)
  /-- The host takes the response (R124). -/
  | take
  /-- The host asserts `rst` for one clock edge (R114). -/
  | reset
  /-- The host stores a byte of a buffer it owns (R40). -/
  | store (addr : Addr) (value : Byte)
  /-- The memory completes the access that an abandoned command left in flight (R115). -/
  | drain
  deriving DecidableEq, Repr

/-- The data memory: (address, byte) pairs, addresses strictly rising, no entry equal to the byte an unlisted address
reads as (Memory.wf in Ops.lean). -/
abbrev Memory := List Host.Cell

/-- The state of the machine. -/
structure State where
  /-- `POLYNOM`, `INITIAL_VALUE`, `MemBacked` (R5): constant over every step (log 1). -/
  cfg : Config
  /-- `ACC`, the one architectural register (R10). -/
  acc : Word
  /-- The engine's hidden state (R18). -/
  phase : Phase
  /-- The platform's data memory (R25). -/
  mem : Memory
  /-- The access transferred on the memory port and not yet completed (R28: at most one). -/
  bus : Option Access
  /-- The model's own record of the accesses transferred so far, oldest first (log 9). -/
  accesses : List Access
  /-- What the host and the platform do next, in order (R128; log 4). -/
  plan : List Move
  /-- The responses the host has taken, oldest first (R128). -/
  responses : List Response
  deriving DecidableEq, Repr

/-- Why a run stops. Each is a use that the spec forbids to the host and gives no effect; stopping is safe. -/
inductive Fault where
  /-- CALCULATE reads an address that is not backed or not readable (R36, 93 U1). Safe. -/
  | notReadable (addr : Addr)
  /-- RESULT_ARRAY writes an address that is not backed or not writable (R36, 93 U2). Safe. -/
  | notWritable (addr : Addr)
  /-- A command uses memory while an access abandoned by a reset is still in flight, which the host must not do (R115;
  log 7). Safe. -/
  | notDrained
  /-- The host stores to an address that is not backed, where there is no memory (R27, log 8). Safe. -/
  | hostStoreNotBacked (addr : Addr)
  deriving DecidableEq, Repr

/-- Why an instruction has no meaning. -/
inductive Refusal where
  /-- Raised by no instruction of this model: every command has its meaning. Safe. -/
  | notModelled (mnemonic : String)
  deriving DecidableEq, Repr

/-- The machine right after reset (R22, R114): `ACC` = `INITIAL_VALUE`, the engine idle, no response and no memory
request. The constants are the defaults (log 1), every address is backed (log 2), memory lists nothing (log 3), and the
host's plan is empty (log 4). -/
def State.reset : State :=
  { cfg := Config.default, acc := Config.default.initialValue, phase := .idle, mem := [], bus := none,
    accesses := [], plan := [], responses := [] }

end Sys2Proof.Machine
end

