-- ==== Sys2Proof/Machine/Flags.lean ====
section
/-! DEFINITION. The engine has no flags, condition codes or predicates (spec/10_state.md R13). The one-bit values there
are: `data_bit` and `crc_bit`, which exist only inside one bit step (R67), and the status bit of a response, an output
and not a register (R58). -/

namespace Sys2Proof.Machine

/-- `data_bit`: bit `i` of the input byte (R69 step 1). -/
def dataBit (byte : Byte) (i : Nat) : Bool := byte.getLsbD i

/-- `crc_bit`: bit 15 of the accumulator before the shift (R67, R69 step 2). -/
def crcBit (acc : Word) : Bool := acc.getLsbD 15

/-- Bit 16 of the response word (R58). -/
def Status.bit : Status → BitVec 1
  | .ok      => 0#1
  | .illegal => 1#1

/-- The response word `{status, data}` (R58). -/
def Response.word (r : Response) : RspWord := r.status.bit ++ r.data

end Sys2Proof.Machine
end

