-- ==== Sys2Proof/Machine/Crc.lean ====
section
/-! DEFINITION. The pure functions of the CRC (spec/41_update.md R67, R68, R72), for any `POLYNOM`. -/

namespace Sys2Proof.Machine

/-- `bitstep(a, d)` (R67): the top bit is taken before the shift, the exclusive OR is applied after it. -/
def bitstep (polynom acc : Word) (d : Bool) : Word :=
  if d ≠ crcBit acc then (acc <<< 1) ^^^ polynom else acc <<< 1

/-- `n` bit steps taking the bits of the byte from bit `i` upwards. -/
def bitsteps (polynom : Word) (byte : Byte) : Nat → Nat → Word → Word
  | _, 0, acc     => acc
  | i, n + 1, acc => bitsteps polynom byte (i + 1) n (bitstep polynom acc (dataBit byte i))

/-- `update_fn(a, b)` (R68): eight bit steps, bit 0 first. -/
def updateFn (polynom acc : Word) (byte : Byte) : Word := bitsteps polynom byte 0 8 acc

/-- The rest of an update whose next bit step takes bit `bit`. -/
def updateRest (polynom acc : Word) (byte : Byte) (bit : Fin 8) : Word :=
  bitsteps polynom byte bit.val (8 - bit.val) acc

/-- `crc_fn(s, bs)` (R72): the bytes folded from the first to the last. -/
def crcFn (polynom seed : Word) (bytes : List Byte) : Word :=
  bytes.foldl (updateFn polynom) seed

/-- `rev8(b)` (R76): the eight bits in reverse order. -/
def rev8 (byte : Byte) : Byte := byte.reverse

end Sys2Proof.Machine
end

