-- ==== Sys2Proof/Machine/Operands.lean ====
section
/-! DEFINITION. The operand forms (spec/30_encoding.md R52, spec/41_update.md R71): the zero extension of `initial`, the
address of a buffer byte, and the two bytes of the accumulator. -/

namespace Sys2Proof.Machine

/-- `zext_16(initial)`: zeros at the top (R52). -/
def zextInitial (initial : Byte) : Word := initial.setWidth 16

/-- The address of byte `i` of a buffer at `ptr`: `(ptr + i) mod 2^16` (R37). -/
def bufferAddr (ptr : Addr) (i : Nat) : Addr := ptr + BitVec.ofNat 16 i

/-- `ACC[7:0]` (R71). -/
def lowByte (acc : Word) : Byte := acc.extractLsb' 0 8

/-- `ACC[15:8]` (R71). -/
def highByte (acc : Word) : Byte := acc.extractLsb' 8 8

/-- Where RESULT_ARRAY stores a byte (R30). -/
def outAddr (ptr : Addr) : OutByte → Addr
  | .low  => ptr
  | .high => bufferAddr ptr 1

/-- Which byte RESULT_ARRAY stores there (R30). -/
def outValue (acc : Word) : OutByte → Byte
  | .low  => lowByte acc
  | .high => highByte acc

/-- The address CALCULATE is at. -/
def Buffer.addr (buf : Buffer) : Addr := bufferAddr buf.ptr buf.index.toNat

/-- How many bytes CALCULATE has still to read, the one at the index among them. -/
def Buffer.left (buf : Buffer) : Nat := buf.length.toNat - buf.index.toNat

/-- The same CALCULATE at its next byte. -/
def Buffer.next (buf : Buffer) : Buffer := { buf with index := buf.index + 1#8 }

/-- The byte at the index is the last. -/
def Buffer.isLast (buf : Buffer) : Bool := decide (buf.index.toNat + 1 = buf.length.toNat)

end Sys2Proof.Machine
end

