-- ==== Sys2Proof/Machine/Ops.lean ====
section
/-! DEFINITION. The named operations over memory, the memory port, the accumulator, the response channel and reset. Every
instruction and every clock edge is written over these. -/

namespace Sys2Proof.Machine

/-! ## Memory (spec/20_memory.md R25, R29) -/

/-- What a byte of memory that nothing has written reads as. DESIGN CHOICE (log 3, unsafe): the spec gives the data memory
no contents after power-on (R116). -/
def Memory.unlisted : Byte := 0x00#8

/-- The byte at a key of the list, the first entry for it. -/
def Memory.lookup : Memory → Nat → Byte
  | [], _          => Memory.unlisted
  | (k, v) :: m, a => if k = a then v else Memory.lookup m a

/-- The list with the byte at a key replaced, kept in canonical form. -/
def Memory.insert : Memory → Nat → Byte → Memory
  | [], a, v => if v = Memory.unlisted then [] else [(a, v)]
  | (k, x) :: m, a, v =>
    if a < k then (if v = Memory.unlisted then (k, x) :: m else (a, v) :: (k, x) :: m)
    else if a = k then (if v = Memory.unlisted then m else (a, v) :: m)
    else (k, x) :: Memory.insert m a v

/-- The byte the memory holds at an address (R29). -/
def Memory.read (m : Memory) (a : Addr) : Byte := Memory.lookup m a.toNat

/-- The memory with a byte stored at an address (R29). -/
def Memory.write (m : Memory) (a : Addr) (v : Byte) : Memory := Memory.insert m a.toNat v

/-- The keys rise from `lo`, stay below 2^16, and no entry equals the unlisted byte. -/
def Memory.wfFrom : Nat → Memory → Bool
  | _, []           => true
  | lo, (k, v) :: m => decide (lo ≤ k) && decide (k < 65536) && decide (v ≠ Memory.unlisted) && Memory.wfFrom (k + 1) m

/-- The memory is in canonical form. -/
def Memory.wf (m : Memory) : Bool := Memory.wfFrom 0 m

/-- The `n` bytes of the buffer at `ptr`, addresses wrapping (R37). -/
def bufferBytes (m : Memory) (ptr : Addr) (n : Nat) : List Byte :=
  (List.range n).map fun i => m.read (bufferAddr ptr i)

/-! ## Plain updates of the state -/

/-- `ACC <- v`. -/
def State.setAcc (s : State) (v : Word) : State := { s with acc := v }

/-- The engine's hidden state becomes `ph`. -/
def State.setPhase (s : State) (ph : Phase) : State := { s with phase := ph }

/-- The host's plan becomes `plan`. -/
def State.setPlan (s : State) (plan : List Move) : State := { s with plan := plan }

/-- The data memory becomes `m`. -/
def State.setMem (s : State) (m : Memory) : State := { s with mem := m }

/-! ## The response channel (R58, R96, R124) -/

/-- `respond(status, data)`: the command ends and its response waits to be taken. -/
def respond (status : Status) (data : Word) (s : State) : State :=
  s.setPhase (.responding { status := status, data := data })

/-- `respond(0, 0x0000)`. -/
def respondOk (s : State) : State := respond .ok 0x0000#16 s

/-- `raise IllegalCommand(w)` (R96), the one exception of the hardware: `respond(1, 0x0000)` and nothing else. There is no
trap entry and no return (R101, R102). -/
def raiseIllegal (s : State) : State := respond .illegal 0x0000#16 s

/-- The response is transferred to the host and the engine is idle (R124). -/
def takeResponse (r : Response) (s : State) : State :=
  { s with phase := .idle, responses := s.responses ++ [r] }

/-! ## Reset (R114, R116) -/

/-- The effect of `rst` at a clock edge: `ACC` = `INITIAL_VALUE`, the engine idle, a command in progress dropped without a
response. An access already transferred stays in flight (R115). -/
def applyReset (s : State) : State := { s with acc := s.cfg.initialValue, phase := .idle }

/-! ## The memory port (R28, R29, R36) -/

/-- The address of the access is backed, for a read readable and for a write writable (R27). -/
def Access.backedBy (acc : Access) (c : Config) : Bool :=
  match acc with
  | .read a    => c.readable a
  | .write a _ => c.writable a

/-- The fault of an access to an address that is not backed for it (R36; 93 U1, U2). -/
def unbackedFault : Access → Fault
  | .read a    => .notReadable a
  | .write a _ => .notWritable a

/-- The request of one access is transferred (R28). It faults where the run has no meaning: the port is still busy with an
access left over by a reset (R115, log 7), or the address is not backed (R36, log 6). -/
def request (a : Access) (s : State) : Except Fault State :=
  match s.bus, a.backedBy s.cfg with
  | some _, _   => .error .notDrained
  | none, true  => .ok { s with bus := some a, accesses := s.accesses ++ [a] }
  | none, false => .error (unbackedFault a)

/-- What performing an access does to the memory (R29). DESIGN CHOICE (log 23, unsafe): every backed address is plain
memory, which a read leaves unchanged; R34 leaves to the platform what a device register behind an address does. -/
def Access.perform : Access → Memory → Memory
  | .read _, m    => m
  | .write a v, m => m.write a v

/-- The memory completes the access in flight, if there is one. -/
def complete (s : State) : State :=
  match s.bus with
  | none   => s
  | some a => { s with bus := none, mem := a.perform s.mem }

/-- `MemRead(addr, 1)` (R29): request and completion. -/
def memRead (a : Addr) (s : State) : Except Fault (Byte × State) :=
  match request (.read a) s with
  | .error f => .error f
  | .ok t    => .ok (t.mem.read a, complete t)

/-- `MemWrite(addr, 1, v)` (R29): request and completion. -/
def memWrite (a : Addr) (v : Byte) (s : State) : Except Fault State :=
  match request (.write a v) s with
  | .error f => .error f
  | .ok t    => .ok (complete t)

/-! ## Folding (R69, R80) -/

/-- `ACC <- update_fn(ACC, b)`. -/
def foldByte (b : Byte) (s : State) : State := s.setAcc (updateFn s.cfg.polynom s.acc b)

/-- The loop of CALCULATE (R80): `n` bytes from address `a`, each read and then folded before the next is read. -/
def foldBuffer : Nat → Addr → State → Except Fault State
  | 0, _, s     => .ok s
  | n + 1, a, s =>
    match memRead a s with
    | .error f   => .error f
    | .ok (b, t) => foldBuffer n (a + 1#16) (foldByte b t)

/-- The loop and then the response of CALCULATE. -/
def finishBuffer (n : Nat) (a : Addr) (s : State) : Except Fault State :=
  (foldBuffer n a s).map respondOk

/-! ## The two stores of RESULT_ARRAY (R90) -/

/-- The second store and the response. -/
def storeHigh (ptr : Addr) (s : State) : Except Fault State :=
  (memWrite (outAddr ptr .high) (outValue s.acc .high) s).map respondOk

/-- Both stores, the low byte first, and the response. -/
def storeBoth (ptr : Addr) (s : State) : Except Fault State :=
  match memWrite (outAddr ptr .low) (outValue s.acc .low) s with
  | .error f => .error f
  | .ok t    => storeHigh ptr t

/-! ## Outcomes -/

/-- The outcome of an operation that ends in a state or a fault. -/
def outcomeOf : Except Fault State → Host.Outcome State Fault Refusal
  | .ok s    => .next s
  | .error f => .fault f

/-- One outcome after another: the second runs only from a next state. -/
def andThen (o : Host.Outcome State Fault Refusal) (f : State → Host.Outcome State Fault Refusal) :
    Host.Outcome State Fault Refusal :=
  match o with
  | .next s    => f s
  | .fault r   => .fault r
  | .refused r => .refused r

end Sys2Proof.Machine
end

