-- ==== Sys2Proof/Machine/Calculate.lean ====
section
/-! DEFINITION. CALCULATE (spec/42_calculate.md): seed, then fold a buffer. -/

namespace Sys2Proof.Machine

/-- CALCULATE (R80): `ACC <- zext_16(initial)`, then `length` reads at `ptr`, `ptr + 1`, ..., each folded before the next,
then `respond(0, 0x0000)`. It faults at the first address that is not readable (93 U1). -/
def execCalculate (initial length : Byte) (ptr : Addr) (s : State) : Host.Outcome State Fault Refusal :=
  outcomeOf (finishBuffer length.toNat ptr (s.setAcc (zextInitial initial)))

end Sys2Proof.Machine
end

