-- ==== Sys2Proof/Machine/Result.lean ====
section
/-! DEFINITION. RESULT and RESULT_ARRAY (spec/43_result.md): the two result accessors. Neither changes `ACC`. -/

namespace Sys2Proof.Machine

/-- RESULT (R87): `respond(0, ACC)`. -/
def execResult (s : State) : Host.Outcome State Fault Refusal :=
  .next (respond .ok s.acc s)

/-- RESULT_ARRAY (R90): the low byte at `ptr`, then the high byte at `(ptr + 1) mod 2^16`, then `respond(0, 0x0000)`. It
faults at the first address that is not writable (93 U2). -/
def execResultArray (ptr : Addr) (s : State) : Host.Outcome State Fault Refusal :=
  outcomeOf (storeBoth ptr s)

end Sys2Proof.Machine
end

