-- ==== Sys2Proof/Machine/Stream.lean ====
section
/-! DEFINITION. SEED (spec/40_seed.md) and UPDATE (spec/41_update.md): the streaming commands. -/

namespace Sys2Proof.Machine

/-- SEED (R63): `ACC <- value`, `respond(0, 0x0000)`. -/
def execSeed (value : Word) (s : State) : Host.Outcome State Fault Refusal :=
  .next (respondOk (s.setAcc value))

/-- UPDATE (R69): `ACC <- update_fn(ACC, byte)`, `respond(0, 0x0000)`. -/
def execUpdate (byte : Byte) (s : State) : Host.Outcome State Fault Refusal :=
  .next (respondOk (foldByte byte s))

end Sys2Proof.Machine
end

