-- ==== Sys2Proof/Machine/Dispatch.lean ====
section
/-! DEFINITION. The meaning of each command: one arm per constructor of Instr. -/

namespace Sys2Proof.Machine

def exec (i : Instr) (s : State) : Host.Outcome State Fault Refusal :=
  match i with
  | .seed value => Sys2Proof.Machine.execSeed value s
  | .update byte => Sys2Proof.Machine.execUpdate byte s
  | .calculate initial length ptr => Sys2Proof.Machine.execCalculate initial length ptr s
  | .result => Sys2Proof.Machine.execResult s
  | .resultArray ptr => Sys2Proof.Machine.execResultArray ptr s

end Sys2Proof.Machine
end

