-- ==== Sys2Proof/Machine/Command.lean ====
section
/-! DEFINITION. The command level (spec/00_scope.md R7, spec/70_reset_and_hazards.md R123, R124, R128): a command word run
whole, a command under way carried to its end, and one move of the host or the memory. -/

namespace Sys2Proof.Machine

/-- A command word executed completely: the command it decodes to, or IllegalCommand (R54, R96). -/
def runWord (w : CmdWord) (s : State) : Host.Outcome State Fault Refusal :=
  match decode w with
  | .ok i    => exec i s
  | .error _ => .next (raiseIllegal s)

/-- The engine, from whatever point of a command it is at, carried to the command's end (log 12). With no command under
way the state stays as it is. -/
def finish (s : State) : Host.Outcome State Fault Refusal :=
  match s.phase with
  | .idle                     => .next s
  | .latched w                => runWord w s
  | .updating byte bit        => .next (respondOk (s.setAcc (updateRest s.cfg.polynom s.acc byte bit)))
  | .readRequest buf          => outcomeOf (finishBuffer buf.left buf.addr s)
  | .readWait buf             =>
    outcomeOf (finishBuffer (buf.left - 1) (buf.addr + 1#16) (foldByte (s.mem.read buf.addr) (complete s)))
  | .folding buf byte bit     =>
    outcomeOf (finishBuffer (buf.left - 1) (buf.addr + 1#16) (s.setAcc (updateRest s.cfg.polynom s.acc byte bit)))
  | .writeRequest ptr .low    => outcomeOf (storeBoth ptr s)
  | .writeRequest ptr .high   => outcomeOf (storeHigh ptr s)
  | .writeWait ptr .low       => outcomeOf (storeHigh ptr (complete s))
  | .writeWait _ .high        => .next (respondOk (complete s))
  | .responding _             => .next s

/-- The host stores a byte of its buffer (R40): it may store to every backed address, whatever the engine may do there, and
the byte is in memory before the host's next move (log 8). -/
def hostStore (a : Addr) (v : Byte) (s : State) : Host.Outcome State Fault Refusal :=
  if s.cfg.backed a then .next (s.setMem (s.mem.write a v)) else .fault (.hostStoreNotBacked a)

/-- The next move while the engine is idle. A move that cannot happen yet is held, and the state stays as it is
(log 14). -/
def idleMove (s : State) : Host.Outcome State Fault Refusal :=
  match s.plan with
  | []                => .next s
  | .send w :: rest   => runWord w (s.setPlan rest)
  | .take :: _        => .next s
  | .reset :: rest    => .next (applyReset (s.setPlan rest))
  | .store a v :: rest => hostStore a v (s.setPlan rest)
  | .drain :: rest    => .next (complete (s.setPlan rest))

/-- The next move while the response `r` waits: a command word offered meanwhile is not accepted (R123). DESIGN CHOICE
(log 22, safe): CALCULATE's no-write window (R120 "until its response", R40 (c) "has taken the response") ends when the
response is offered, so a store of the host is performed here, with no race and no fault. -/
def respondingMove (r : Response) (s : State) : Host.Outcome State Fault Refusal :=
  match s.plan with
  | []                => .next s
  | .send _ :: _      => .next s
  | .take :: rest     => .next (takeResponse r (s.setPlan rest))
  | .reset :: rest    => .next (applyReset (s.setPlan rest))
  | .store a v :: rest => hostStore a v (s.setPlan rest)
  | .drain :: rest    => .next (complete (s.setPlan rest))

/-- The next move while a command is under way: `rst` abandons it (R115), and otherwise the engine carries it to its end
before any other move (R123). -/
def busyMove (s : State) : Host.Outcome State Fault Refusal :=
  match s.plan with
  | .reset :: rest => .next (applyReset (s.setPlan rest))
  | _              => finish s

/-- One step of the machine, to the next boundary between commands. -/
def advance (s : State) : Host.Outcome State Fault Refusal :=
  match s.phase with
  | .idle         => idleMove s
  | .responding r => respondingMove r s
  | _             => busyMove s

/-- The engine made idle: a response that waits is taken, a command under way is dropped. -/
def makeIdle (s : State) : State :=
  match s.phase with
  | .responding r => takeResponse r s
  | _             => s.setPhase .idle

/-- The host about to send the word `w` to an idle engine, before the rest of its plan (log 5). -/
def offerWord (w : CmdWord) (s : State) : State :=
  (makeIdle s).setPlan (.send w :: s.plan)

end Sys2Proof.Machine
end

