-- ==== Sys2Proof/Machine/Step.lean ====
section
/-! DEFINITION. One step of the machine, and how a command word is placed where the next step takes it. -/

namespace Sys2Proof.Machine

/-- One step at the command level (spec/00_scope.md R7, spec/70_reset_and_hazards.md R123, R124). -/
def step (s : State) : Host.Outcome State Fault Refusal := advance s

/-- The state whose next step takes and runs the word `w` of `nbits` bits: the engine idle and the word the host's next
move (log 5). -/
def State.withFetchWord (s : State) (nbits w : Nat) : State := offerWord (tableWord nbits w) s

end Sys2Proof.Machine
end

