-- ==== Sys2Proof/Machine/Clock.lean ====
section
/-! DEFINITION. The clock-edge level: the ports of spec/00_scope.md R6 and what one rising edge of `clk` does (R28, R113 to
R116, R123, R124, R127). The command level is what this level does between two command boundaries; the statements of
Certificates/Slice0 say so. -/

namespace Sys2Proof.Machine

/-- The input ports at one rising edge of `clk` (R6). -/
structure Pins where
  rst         : Bool
  cmdValid    : Bool
  cmdWord     : CmdWord
  rspReady    : Bool
  memReqReady : Bool
  memRspValid : Bool
  memRspRdata : Byte
  deriving DecidableEq, Repr

/-- The output ports (R6). A channel's payload is present exactly when its valid is 1: the spec gives the payload no value
otherwise. -/
structure Outs where
  cmdReady : Bool
  rsp      : Option RspWord
  memReq   : Option Access
  deriving DecidableEq, Repr

/-- The access the engine offers (`mem_req_valid` = 1), if any. -/
def State.offered (s : State) : Option Access :=
  match s.phase with
  | .readRequest buf    => some (.read buf.addr)
  | .writeRequest ptr o => some (.write (outAddr ptr o) (outValue s.acc o))
  | _                   => none

/-- The access whose completion the engine waits for, if any. -/
def State.awaited (s : State) : Option Access :=
  match s.phase with
  | .readWait buf    => some (.read buf.addr)
  | .writeWait ptr o => some (.write (outAddr ptr o) (outValue s.acc o))
  | _                => none

/-- The response word offered (`rsp_valid` = 1), if any. -/
def State.offeredResponse (s : State) : Option RspWord :=
  match s.phase with
  | .responding r => some r.word
  | _             => none

/-- The output ports in a state, given `rst`: `cmd_ready` is 1 exactly when the engine is idle and not held in reset
(R114, R123, 90 C7). -/
def outs (rst : Bool) (s : State) : Outs :=
  { cmdReady := decide (s.phase = .idle) && !rst, rsp := s.offeredResponse, memReq := s.offered }

/-- What the engine holds once it has taken a command word: the word latched, or, for RESULT_ARRAY, its first write
offered at once (log 11). -/
def acceptWord (w : CmdWord) : Phase :=
  match decode w with
  | .ok (.resultArray ptr) => .writeRequest ptr .low
  | _                      => .latched w

/-- One edge with a latched word: SEED, RESULT and an illegal word are done; UPDATE does its first bit step; CALCULATE seeds
and offers its first read, if it has one. -/
def latchedEdge (w : CmdWord) (s : State) : State :=
  match decode w with
  | .error _                => raiseIllegal s
  | .ok (.seed value)       => respondOk (s.setAcc value)
  | .ok (.update byte)      =>
    (s.setAcc (bitstep s.cfg.polynom s.acc (dataBit byte 0))).setPhase (.updating byte 1)
  | .ok (.calculate initial length ptr) =>
    let t := s.setAcc (zextInitial initial)
    if length = 0#8 then respondOk t
    else t.setPhase (.readRequest { ptr := ptr, length := length, index := 0#8 })
  | .ok .result             => respond .ok s.acc s
  | .ok (.resultArray ptr)  => s.setPhase (.writeRequest ptr .low)

/-- One bit step of UPDATE. -/
def updatingEdge (byte : Byte) (bit : Fin 8) (s : State) : State :=
  let t := s.setAcc (bitstep s.cfg.polynom s.acc (dataBit byte bit.val))
  if bit = 7 then respondOk t else t.setPhase (.updating byte (bit + 1))

/-- One bit step of CALCULATE; after the eighth comes the next read, or the response after the last byte. -/
def foldingEdge (buf : Buffer) (byte : Byte) (bit : Fin 8) (s : State) : State :=
  let t := s.setAcc (bitstep s.cfg.polynom s.acc (dataBit byte bit.val))
  if bit = 7 then (if buf.isLast then respondOk t else t.setPhase (.readRequest buf.next))
  else t.setPhase (.folding buf byte (bit + 1))

/-- The offered access is transferred, and the engine waits for its completion. -/
def transfer (a : Access) (ph : Phase) (s : State) : Except Fault State :=
  (request a s).map fun t => t.setPhase ph

/-- The engine after the completion of a write. -/
def writtenEdge (ptr : Addr) (out : OutByte) (s : State) : State :=
  match out with
  | .low  => s.setPhase (.writeRequest ptr .high)
  | .high => respondOk s

/-- The memory's side of an edge: with `mem_rsp_valid` = 1 it completes the access in flight. -/
def memoryEdge (p : Pins) (s : State) : State := if p.memRspValid then complete s else s

/-- The engine's side of an edge at which `rst` is 0. DESIGN CHOICE (log 7, unsafe here): a memory command sent before an
access abandoned by a reset has drained, which R115 forbids without an effect, faults only if that access is still in
flight when the command's first request is transferred; if it completes before, or at that edge, the command goes on. -/
def engineEdge (p : Pins) (s : State) : Except Fault State :=
  match s.phase with
  | .idle                 => .ok (if p.cmdValid then s.setPhase (acceptWord p.cmdWord) else s)
  | .latched w            => .ok (latchedEdge w s)
  | .updating byte bit    => .ok (updatingEdge byte bit s)
  | .readRequest buf      =>
    if p.memReqReady then transfer (.read buf.addr) (.readWait buf) s else .ok s
  | .readWait buf         =>
    .ok (if p.memRspValid then s.setPhase (.folding buf p.memRspRdata 0) else s)
  | .folding buf byte bit => .ok (foldingEdge buf byte bit s)
  | .writeRequest ptr o   =>
    if p.memReqReady then transfer (.write (outAddr ptr o) (outValue s.acc o)) (.writeWait ptr o) s else .ok s
  | .writeWait ptr o      => .ok (if p.memRspValid then writtenEdge ptr o s else s)
  | .responding r         => .ok (if p.rspReady then takeResponse r s else s)

/-- One rising edge of `clk`. Reset wins over every transfer at its edge (R100, R114); a completion at that edge is
ignored by the engine and still lands in the memory (R115). -/
def edge (p : Pins) (s : State) : Host.Outcome State Fault Refusal :=
  if p.rst then .next (applyReset (memoryEdge p s))
  else outcomeOf (engineEdge p (memoryEdge p s))

/-- A sequence of edges, oldest first, stopping at the first fault. -/
def edges : List Pins → State → Host.Outcome State Fault Refusal
  | [], s      => .next s
  | p :: ps, s => andThen (edge p s) (edges ps)

end Sys2Proof.Machine
end

