-- ==== Sys2Proof/Safety.lean ====
section
/-! DEFINITION. The terms in which claims are stated: the host's contract, the invariants of the two levels, the stream that
`ACC` is the CRC of, and the runs of the clock-edge level. -/

namespace Sys2Proof.Machine

/-! ## The host's contract (spec/20_memory.md R27, spec/70_reset_and_hazards.md R115) -/

/-- Every byte of the buffer is backed and readable (R27). -/
def BufferReadable (s : State) (ptr : Addr) (n : Nat) : Prop :=
  ∀ i, i < n → s.cfg.readable (bufferAddr ptr i) = true

/-- Both output bytes are backed and writable (R27). -/
def OutWritable (s : State) (ptr : Addr) : Prop :=
  s.cfg.writable ptr = true ∧ s.cfg.writable (bufferAddr ptr 1) = true

/-- The reads of CALCULATE, in order (R34). -/
def bufferReads (ptr : Addr) (n : Nat) : List Access :=
  (List.range n).map fun i => .read (bufferAddr ptr i)

/-- The writes of RESULT_ARRAY, in order (R34). -/
def outWrites (ptr : Addr) (acc : Word) : List Access :=
  [.write (outAddr ptr .low) (outValue acc .low), .write (outAddr ptr .high) (outValue acc .high)]

/-- The address is one that the command stores to (R26: only RESULT_ARRAY stores). -/
def storesTo (i : Instr) (a : Addr) : Prop :=
  match i with
  | .resultArray ptr => a = outAddr ptr .low ∨ a = outAddr ptr .high
  | _                => False

/-- The commands that write `ACC` (R10's table). -/
def writesAcc : Instr → Bool
  | .seed _ | .update _ | .calculate _ _ _ => true
  | .result | .resultArray _               => false

/-! ## Invariants -/

/-- No command is under way: the engine is idle or its response waits. -/
def State.atBoundary (s : State) : Bool :=
  match s.phase with
  | .idle | .responding _ => true
  | _                     => false

/-- CALCULATE's byte index is below its length. -/
def Phase.wf : Phase → Bool
  | .readRequest buf | .readWait buf | .folding buf _ _ => decide (buf.index.toNat < buf.length.toNat)
  | _ => true

/-- The access the engine waits for is the one in flight, and an access in flight is to a backed address. -/
def State.busWf (s : State) : Bool :=
  (match s.awaited with
   | some a => decide (s.bus = some a)
   | none   => true) &&
  (match s.bus with
   | some a => a.backedBy s.cfg
   | none   => true)

/-- The invariant that every step and every clock edge keeps. -/
def State.inv (s : State) : Bool := s.mem.wf && s.phase.wf && s.busWf

/-- No access abandoned by a reset is in flight (R115): only one the engine waits for. -/
def State.drained (s : State) : Bool := s.awaited.isSome || s.bus.isNone

/-! ## The stream (spec/10_state.md R19) -/

/-- The last seed, and the bytes folded in since then. -/
structure Stream where
  seed : Word
  fed  : List Byte
  deriving DecidableEq, Repr

/-- The stream after a command word (R19): SEED and CALCULATE start one, UPDATE and CALCULATE's loop feed it, everything
else leaves it. -/
def Stream.afterWord (t : Stream) (w : CmdWord) (s : State) : Stream :=
  match decode w with
  | .ok (.seed value)                   => { seed := value, fed := [] }
  | .ok (.update byte)                  => { seed := t.seed, fed := t.fed ++ [byte] }
  | .ok (.calculate initial length ptr) =>
    { seed := zextInitial initial, fed := bufferBytes s.mem ptr length.toNat }
  | _                                   => t

/-- The stream after the step the machine is about to take. Reset counts as a seed with `INITIAL_VALUE` (R19, 90 C6). -/
def Stream.after (t : Stream) (s : State) : Stream :=
  match s.plan with
  | .reset :: _  => { seed := s.cfg.initialValue, fed := [] }
  | .send w :: _ => if s.phase = .idle then t.afterWord w s else t
  | _            => t

/-- "accumulator always holds exactly the CRC of all bytes fed since the last seed operation" (R19). -/
def State.accIs (s : State) (t : Stream) : Prop := s.acc = crcFn s.cfg.polynom t.seed t.fed

/-! ## Waiting, and how far a command is from its end (R125, R126) -/

/-- The engine waits at an edge without reset: for a command, for the memory, or for its response to be taken (R126). -/
abbrev waitsAt (p : Pins) (s : State) : Prop :=
  (s.phase = .idle ∧ p.cmdValid = false) ∨ (s.offered.isSome = true ∧ p.memReqReady = false) ∨
    (s.awaited.isSome = true ∧ p.memRspValid = false) ∨ (s.offeredResponse.isSome = true ∧ p.rspReady = false)

/-- How many edges without a wait a latched word takes to its response. The count is the model's own (log 11). -/
def wordEdges (w : CmdWord) : Nat :=
  match decode w with
  | .ok (.update _)             => 8
  | .ok (.calculate _ length _) => 1 + 10 * length.toNat
  | .ok (.resultArray _)        => 5
  | _                           => 1

/-- How many edges without a wait the engine is from the end of the command under way; 0 when there is none. The count is
the model's own (log 11). -/
def State.edgesLeft (s : State) : Nat :=
  match s.phase with
  | .idle | .responding _    => 0
  | .latched w               => wordEdges w
  | .updating _ bit          => 8 - bit.val
  | .readRequest buf         => 10 * buf.left
  | .readWait buf            => 10 * buf.left - 1
  | .folding buf _ bit       => 10 * (buf.left - 1) + (8 - bit.val)
  | .writeRequest _ .low     => 4
  | .writeWait _ .low        => 3
  | .writeRequest _ .high    => 2
  | .writeWait _ .high       => 1

/-! ## Runs -/

/-- At how many edges of the sequence the engine does not wait. -/
def movingEdges : List Pins → State → Nat
  | [], _      => 0
  | p :: ps, s =>
    (if waitsAt p s then 0 else 1) +
      match edge p s with
      | .next t    => movingEdges ps t
      | .fault _   => 0
      | .refused _ => 0

/-- A sequence of commands, each executed whole and its response taken. -/
def execAll : List Instr → State → Host.Outcome State Fault Refusal
  | [], s      => .next s
  | i :: is, s => andThen (exec i s) fun t => execAll is (makeIdle t)

/-- The memory answers a read with the byte it holds (R29). -/
def Pins.faithful (p : Pins) (s : State) : Prop :=
  ∀ a, p.memRspValid = true → s.bus = some (.read a) → p.memRspRdata = s.mem.read a

/-- The edges keep `rst` at 0, leave the response waiting, and their memory is faithful throughout. -/
def Undisturbed : List Pins → State → Prop
  | [], _      => True
  | p :: ps, s => p.rst = false ∧ p.rspReady = false ∧ p.faithful s ∧ ∀ t, edge p s = .next t → Undisturbed ps t

/-- The pins of an edge at which the memory takes and completes every access at once and no command, response or reset
comes from the host. -/
def promptPins (s : State) : Pins :=
  { rst := false, cmdValid := false, cmdWord := 0#40, rspReady := false, memReqReady := true,
    memRspValid := s.bus.isSome,
    memRspRdata := match s.bus with
      | some (.read a) => s.mem.read a
      | _              => 0#8 }

/-- `k` such edges. -/
def drive : Nat → State → Host.Outcome State Fault Refusal
  | 0, s     => .next s
  | k + 1, s => andThen (edge (promptPins s) s) (drive k)

end Sys2Proof.Machine
end

