-- ==== Sys2Proof/Certificates/Slice0/Obligations.lean ====
section
/-! DEFINITION. The statements for the provers. Each docstring says which rule of spec/ it formalises. The witnesses that
the hypotheses can be met stand in Tests/Slice0.lean, one theorem `witness_<Name>` each. -/

open Sys2Proof Sys2Proof.Machine

/-! ## Encoding -/

/-- R57, which the spec derives from R53 and R54: decoding and encoding are inverse on legal words. -/
def Obligations.DecodeAndEncodeAreInverse : Prop :=
  (∀ i : Instr, decode (encode i) = .ok i) ∧ ∀ (w : CmdWord) (i : Instr), decode w = .ok i → encode i = w

/-- R53: "A word is the command of a row exactly when (cmd_word & mask) = match", and the rows are disjoint. -/
def Obligations.DecodeFollowsTheOpcodeMap : Prop :=
  (∀ (w : CmdWord) (m : Mnemonic),
    (opcodeRow m).matches w = true ↔ ∃ i : Instr, decode w = .ok i ∧ i.mnemonic = m) ∧
  ∀ (w : CmdWord) (m m' : Mnemonic), (opcodeRow m).matches w = true → (opcodeRow m').matches w = true → m = m'

/-- R54: which words are illegal, and that the engine answers one with status 1 and data 0 and changes nothing else. -/
def Obligations.IllegalWordsAndTheirAnswer : Prop :=
  (∀ w : CmdWord, legal w = false ↔
    (opField w = 0x00#8 ∨ 0x06 ≤ (opField w).toNat ∨
     ((opField w = 0x01#8 ∨ opField w = 0x05#8) ∧ upperField w ≠ 0#16) ∨
     (opField w = 0x02#8 ∧ aboveByteField w ≠ 0#24) ∨
     (opField w = 0x04#8 ∧ operandField w ≠ 0#32))) ∧
  (∀ w : CmdWord, opField w = 0x03#8 → legal w = true) ∧
  ∀ (w : CmdWord) (s : State), legal w = false →
    runWord w s = .next { s with phase := .responding { status := .illegal, data := 0x0000#16 } }

/-- R55, which the spec derives from R53 and R54: "Of 2^40 possible words, 2^16 + 2^8 + 2^32 + 1 + 2^16 = 4 295 098 625 are legal and all others are illegal." -/
def Obligations.LegalWordCount : Prop :=
  Nat.card { w : CmdWord // legal w = true } = 2 ^ 16 + 2 ^ 8 + 2 ^ 32 + 1 + 2 ^ 16

/-- spec/95_test_vectors.md section 3.5: words written out and what they decode to. -/
def Obligations.SampleWordsDecode : Prop :=
  decode 0x010000BEEF#40 = .ok (.seed 0xBEEF#16) ∧
  decode 0x02000000FF#40 = .ok (.update 0xFF#8) ∧
  decode 0x03A5071234#40 = .ok (.calculate 0xA5#8 7#8 0x1234#16) ∧
  decode 0x0400000000#40 = .ok .result ∧
  decode 0x0500001234#40 = .ok (.resultArray 0x1234#16) ∧
  decode 0x0100010000#40 = .error (.reservedBits 0x01#8) ∧
  decode 0x0280000000#40 = .error (.reservedBits 0x02#8) ∧
  decode 0x0400000001#40 = .error (.reservedBits 0x04#8) ∧
  decode 0x0500011234#40 = .error (.reservedBits 0x05#8) ∧
  decode 0x0000000041#40 = .error (.reservedOpcode 0x00#8) ∧
  decode 0x0600000000#40 = .error (.reservedOpcode 0x06#8)

/-- R58: every word accepted answers exactly one response, `{status, data}` in bits 16 and 15:0, and which. -/
def Obligations.EveryWordAnswersOneResponse : Prop :=
  (∀ r : Response, r.word.extractLsb' 0 16 = r.data ∧ r.word.getLsbD 16 = decide (r.status = .illegal)) ∧
  ∀ (w : CmdWord) (s t : State), runWord w s = .next t →
    t.responses = s.responses ∧
    t.phase = .responding
      { status := if legal w then .ok else .illegal
        data := match decode w with
          | .ok .result => s.acc
          | _           => 0x0000#16 }

/-- R59: the words of the assembler's lines, and that an operand that does not fit gives no word. -/
def Obligations.AssemblerWords : Prop :=
  (∀ value w, (Line.seed value).assemble = .ok w ↔ value < 2 ^ 16 ∧ w.toNat = 0x01 * 2 ^ 32 + value) ∧
  (∀ byte w, (Line.update byte).assemble = .ok w ↔ byte < 2 ^ 8 ∧ w.toNat = 0x02 * 2 ^ 32 + byte) ∧
  (∀ initial ptr length w, (Line.calculate initial ptr length).assemble = .ok w ↔
    initial < 2 ^ 8 ∧ ptr < 2 ^ 16 ∧ length < 2 ^ 8 ∧
      w.toNat = 0x03 * 2 ^ 32 + initial * 2 ^ 24 + length * 2 ^ 16 + ptr) ∧
  (∀ w, Line.result.assemble = .ok w ↔ w.toNat = 0x04 * 2 ^ 32) ∧
  (∀ ptr w, (Line.resultArray ptr).assemble = .ok w ↔ ptr < 2 ^ 16 ∧ w.toNat = 0x05 * 2 ^ 32 + ptr)

/-! ## The pure functions -/

/-- R67: one bit step. -/
def Obligations.BitStepRule : Prop :=
  ∀ (p a : Word) (d : Bool),
    (d ≠ a.getLsbD 15 → bitstep p a d = (a <<< 1) ^^^ p) ∧ (d = a.getLsbD 15 → bitstep p a d = a <<< 1)

/-- R70, which the spec derives from R67: the next-state equations, and their form for the default polynomial. -/
def Obligations.BitStepAsWires : Prop :=
  (∀ (p a : Word) (d : Bool),
    (bitstep p a d).getLsbD 0 = ((d ^^ a.getLsbD 15) && p.getLsbD 0) ∧
    ∀ k, 1 ≤ k → k ≤ 15 →
      (bitstep p a d).getLsbD k = (a.getLsbD (k - 1) ^^ ((d ^^ a.getLsbD 15) && p.getLsbD k))) ∧
  ∀ (a : Word) (d : Bool),
    (bitstep 0x8005#16 a d).getLsbD 0 = (d ^^ a.getLsbD 15) ∧
    (bitstep 0x8005#16 a d).getLsbD 2 = (a.getLsbD 1 ^^ (d ^^ a.getLsbD 15)) ∧
    (bitstep 0x8005#16 a d).getLsbD 15 = (a.getLsbD 14 ^^ (d ^^ a.getLsbD 15)) ∧
    ∀ k, 1 ≤ k → k ≤ 14 → k ≠ 2 → (bitstep 0x8005#16 a d).getLsbD k = a.getLsbD (k - 1)

/-- R68: `update_fn` is eight bit steps, the byte's bits taken from bit 0 to bit 7. -/
def Obligations.UpdateIsEightBitSteps : Prop :=
  ∀ (p a0 a1 a2 a3 a4 a5 a6 a7 a8 : Word) (b : Byte),
    a1 = bitstep p a0 (b.getLsbD 0) → a2 = bitstep p a1 (b.getLsbD 1) → a3 = bitstep p a2 (b.getLsbD 2) →
    a4 = bitstep p a3 (b.getLsbD 3) → a5 = bitstep p a4 (b.getLsbD 4) → a6 = bitstep p a5 (b.getLsbD 5) →
    a7 = bitstep p a6 (b.getLsbD 6) → a8 = bitstep p a7 (b.getLsbD 7) → updateFn p a0 b = a8

/-- R72, which the spec derives from R68: the fold of a byte sequence, and that a stream may be cut anywhere and continued. -/
def Obligations.StreamMayBeCut : Prop :=
  ∀ (p s : Word) (bs xs ys : List Byte) (b : Byte),
    crcFn p s [] = s ∧
    crcFn p s (bs ++ [b]) = updateFn p (crcFn p s bs) b ∧
    crcFn p s (xs ++ ys) = crcFn p (crcFn p s xs) ys

/-- R74: an all-zero stream leaves a zero register at zero, for every polynomial. -/
def Obligations.ZeroStreamKeepsZero : Prop :=
  ∀ (p : Word), updateFn p 0x0000#16 0x00#8 = 0x0000#16 ∧
    ∀ bs : List Byte, (∀ b ∈ bs, b = 0x00#8) → crcFn p 0x0000#16 bs = 0x0000#16

/-- R75, which the spec derives from R67, R68 and R70: `update_fn` is linear over exclusive OR. -/
def Obligations.UpdateIsLinear : Prop :=
  ∀ (p a1 a2 : Word) (b1 b2 : Byte),
    updateFn p (a1 ^^^ a2) (b1 ^^^ b2) = updateFn p a1 b1 ^^^ updateFn p a2 b2 ∧
    updateFn p a1 b1 = updateFn p a1 0x00#8 ^^^ updateFn p 0x0000#16 b1

/-- R76, which the spec derives from R67 and R68: the data byte enters through the top of the register, bit reversed. -/
def Obligations.DataEntersAtTheTop : Prop :=
  (∀ (p a : Word) (b : Byte), updateFn p a b = updateFn p (a ^^^ (rev8 b ++ 0x00#8)) 0x00#8) ∧
  (∀ (b : Byte) (i : Nat), i ≤ 7 → (rev8 b).getLsbD (7 - i) = b.getLsbD i) ∧
  ∀ (p a : Word) (d : Bool), bitstep p a d = bitstep p (a ^^^ (BitVec.ofBool d ++ 0#15)) false

/-- R77, which the spec derives from R70: with `POLYNOM[0]` = 1 every update is a bijection; with `POLYNOM[0]` = 0 none is. -/
def Obligations.UpdateIsABijection : Prop :=
  (∀ (p : Word) (b : Byte), p.getLsbD 0 = true → Function.Bijective fun a => updateFn p a b) ∧
  (∀ (p a : Word) (d : Bool), p.getLsbD 0 = false →
    bitstep p a d = bitstep p (a ^^^ 0x8000#16 ^^^ (p >>> 1)) d) ∧
  ∀ (p : Word) (b : Byte), p.getLsbD 0 = false → ¬ Function.Injective fun a => updateFn p a b

/-! ## SEED and UPDATE -/

/-- R63: SEED completes in every state; it writes `ACC` and answers, and nothing else changes. -/
def Obligations.SeedCompletes : Prop :=
  ∀ (value : Word) (s : State),
    exec (.seed value) s =
      .next { s with acc := value, phase := .responding { status := .ok, data := 0x0000#16 } }

/-- R64: SEED and then RESULT returns the seed, whatever the state before. -/
def Obligations.SeedThenResult : Prop :=
  ∀ (v : Word) (s : State), ∃ t u, exec (.seed v) s = .next t ∧ exec .result (makeIdle t) = .next u ∧
    u.phase = .responding { status := .ok, data := v } ∧ u.acc = v

/-- R69: UPDATE completes in every state; it folds one byte into `ACC` and answers, and nothing else changes. Its corner case
`POLYNOM` = 0: an update shifts the register by eight. -/
def Obligations.UpdateCompletes : Prop :=
  (∀ (byte : Byte) (s : State),
    exec (.update byte) s =
      .next { s with acc := updateFn s.cfg.polynom s.acc byte,
                     phase := .responding { status := .ok, data := 0x0000#16 } }) ∧
  ∀ (a : Word) (b : Byte), updateFn 0x0000#16 a b = a.extractLsb' 0 8 ++ 0x00#8

/-- R73: SEED, UPDATE, RESULT gives the same data every time it is run: it depends on the seed, the byte and `POLYNOM`. -/
def Obligations.UpdateIsDeterministic : Prop :=
  ∀ (v : Word) (b : Byte) (s1 s2 : State), s1.cfg.polynom = s2.cfg.polynom →
    ∃ t1 t2 u1 u2, execAll [.seed v, .update b] s1 = .next t1 ∧ execAll [.seed v, .update b] s2 = .next t2 ∧
      exec .result t1 = .next u1 ∧ exec .result t2 = .next u2 ∧
      u1.phase = .responding { status := .ok, data := updateFn s1.cfg.polynom v b } ∧ u2.phase = u1.phase

/-! ## CALCULATE -/

/-- R80, with R34's reads: over a readable buffer, with no access in flight, CALCULATE completes; `ACC` is the fold of the
buffer's bytes from the zero-extended initial, the reads are byte 0 to byte `length - 1`, and nothing else changes. -/
def Obligations.CalculateCompletes : Prop :=
  ∀ (initial length : Byte) (ptr : Addr) (s : State),
    (length ≠ 0#8 → s.bus = none) → BufferReadable s ptr length.toNat →
    exec (.calculate initial length ptr) s =
      .next { s with
        acc := crcFn s.cfg.polynom (initial.setWidth 16)
          ((List.range length.toNat).map fun i => s.mem.read (ptr + BitVec.ofNat 16 i))
        accesses := s.accesses ++ (List.range length.toNat).map fun i => .read (ptr + BitVec.ofNat 16 i)
        phase := .responding { status := .ok, data := 0x0000#16 } }

/-- R81: a CALCULATE of length 0 has the same effect as SEED of the zero-extended initial, in every state and whatever its
pointer, and makes no access. -/
def Obligations.CalculateOfLengthZeroIsSeed : Prop :=
  ∀ (initial : Byte) (ptr : Addr) (s : State),
    exec (.calculate initial 0#8 ptr) s = exec (.seed (initial.setWidth 16)) s ∧
    exec (.calculate initial 0#8 ptr) s =
      .next { s with acc := initial.setWidth 16, phase := .responding { status := .ok, data := 0x0000#16 } }

/-- R82: CALCULATE and the sequence SEED, UPDATE, ..., UPDATE over the same bytes end with the same `ACC`. -/
def Obligations.CalculateEqualsStreaming : Prop :=
  ∀ (initial length : Byte) (ptr : Addr) (s : State),
    (length ≠ 0#8 → s.bus = none) → BufferReadable s ptr length.toNat →
    ∃ t u, exec (.calculate initial length ptr) s = .next t ∧
      execAll (.seed (initial.setWidth 16) :: (bufferBytes s.mem ptr length.toNat).map .update) s = .next u ∧
      t.acc = u.acc ∧
      t.acc = crcFn s.cfg.polynom (initial.setWidth 16) (bufferBytes s.mem ptr length.toNat) ∧
      t.mem = s.mem ∧ u.mem = s.mem

/-- R36 and 93 U1: CALCULATE faults at the first byte of the buffer that is not readable. -/
def Obligations.CalculateFaultsAtTheFirstUnreadableByte : Prop :=
  ∀ (initial length : Byte) (ptr : Addr) (s : State) (k : Nat),
    s.bus = none → k < length.toNat → BufferReadable s ptr k → s.cfg.readable (bufferAddr ptr k) = false →
    exec (.calculate initial length ptr) s = .fault (.notReadable (bufferAddr ptr k))

/-! ## RESULT and RESULT_ARRAY -/

/-- R87: RESULT completes in every state; it answers with `ACC`, and nothing else changes. -/
def Obligations.ResultCompletes : Prop :=
  ∀ s : State, exec .result s = .next { s with phase := .responding { status := .ok, data := s.acc } }

/-- R88: N consecutive RESULTs return N equal values and leave `ACC`; RESULT_ARRAYs between them change nothing either. -/
def Obligations.ResultIsIdempotent : Prop :=
  (∀ (n : Nat) (s : State), s.phase = .idle →
    execAll (List.replicate n .result) s =
      .next { s with responses := s.responses ++ List.replicate n { status := .ok, data := s.acc } }) ∧
  ∀ (is : List Instr) (s t : State), (∀ i ∈ is, i = .result ∨ ∃ p, i = .resultArray p) →
    execAll is s = .next t →
    t.acc = s.acc ∧
    t.responses = s.responses ++
      is.map fun i => { status := .ok, data := if i = .result then s.acc else 0x0000#16 }

/-- R90: with both output bytes writable and no access in flight, RESULT_ARRAY completes; it stores the low byte and then
the high byte, and nothing else changes. -/
def Obligations.ResultArrayCompletes : Prop :=
  ∀ (ptr : Addr) (s : State), s.bus = none → OutWritable s ptr →
    exec (.resultArray ptr) s =
      .next { s with
        mem := (s.mem.write ptr (s.acc.extractLsb' 0 8)).write (ptr + 1#16) (s.acc.extractLsb' 8 8)
        accesses := s.accesses ++
          [.write ptr (s.acc.extractLsb' 0 8), .write (ptr + 1#16) (s.acc.extractLsb' 8 8)]
        phase := .responding { status := .ok, data := 0x0000#16 } }

/-- R30: memory byte `ptr` receives `ACC[7:0]` and byte `(ptr + 1) mod 2^16` receives `ACC[15:8]`; every other byte reads
as before. -/
def Obligations.ResultArrayIsLittleEndian : Prop :=
  ∀ (ptr : Addr) (s : State), s.bus = none → OutWritable s ptr → s.mem.wf = true →
    ∃ t, exec (.resultArray ptr) s = .next t ∧
      t.mem.read ptr = s.acc.extractLsb' 0 8 ∧ t.mem.read (ptr + 1#16) = s.acc.extractLsb' 8 8 ∧
      ∀ a, a ≠ ptr → a ≠ ptr + 1#16 → t.mem.read a = s.mem.read a

/-- R91: the round trip of RESULT and RESULT_ARRAY, in either order. -/
def Obligations.ResultArrayRoundTrip : Prop :=
  ∀ (ptr : Addr) (s : State), s.bus = none → OutWritable s ptr → s.mem.wf = true →
    ∃ t u t' u' v, exec .result s = .next t ∧ t.phase = .responding { status := .ok, data := v } ∧
      exec (.resultArray ptr) (makeIdle t) = .next u ∧
      (u.mem.read ptr).setWidth 16 = v &&& 0x00FF#16 ∧
      (u.mem.read (ptr + 1#16)).setWidth 16 = (v >>> 8) &&& 0x00FF#16 ∧
      v = u.mem.read (ptr + 1#16) ++ u.mem.read ptr ∧
      exec (.resultArray ptr) s = .next t' ∧ exec .result (makeIdle t') = .next u' ∧
      u'.phase = .responding { status := .ok, data := v } ∧ u'.mem = u.mem

/-- R36 and 93 U2: RESULT_ARRAY faults at the first of its two bytes that is not writable. -/
def Obligations.ResultArrayFaultsAtTheFirstUnwritableByte : Prop :=
  ∀ (ptr : Addr) (s : State), s.bus = none →
    (s.cfg.writable ptr = false → exec (.resultArray ptr) s = .fault (.notWritable ptr)) ∧
    (s.cfg.writable ptr = true → s.cfg.writable (ptr + 1#16) = false →
      exec (.resultArray ptr) s = .fault (.notWritable (ptr + 1#16)))

/-! ## All commands -/

/-- R10's table and R26 (derived in the spec): what every command leaves unchanged when it ends in a next state. Only SEED, UPDATE and CALCULATE
write `ACC`; only RESULT_ARRAY stores, and only at its two bytes. -/
def Obligations.CommandFrame : Prop :=
  ∀ (i : Instr) (s t : State), exec i s = .next t →
    t.cfg = s.cfg ∧ t.bus = s.bus ∧ t.plan = s.plan ∧ t.responses = s.responses ∧
    (writesAcc i = false → t.acc = s.acc) ∧
    ∀ a, ¬ storesTo i a → t.mem.read a = s.mem.read a

/-- R26 and R34: which accesses a command word makes, each once and in which order; an illegal word makes none. -/
def Obligations.AccessesOfEveryWord : Prop :=
  ∀ (w : CmdWord) (s t : State), runWord w s = .next t →
    t.accesses = s.accesses ++
      match decode w with
      | .ok (.calculate _ length ptr) => (List.range length.toNat).map fun i => .read (ptr + BitVec.ofNat 16 i)
      | .ok (.resultArray ptr)        =>
        [.write ptr (s.acc.extractLsb' 0 8), .write (ptr + 1#16) (s.acc.extractLsb' 8 8)]
      | _                             => []

/-- R115, the model's choice at the command level (log 7): a command that uses memory does not run while an access abandoned by a reset is in
flight. -/
def Obligations.MemoryCommandsNeedADrainedPort : Prop :=
  ∀ (s : State) (a : Access), s.bus = some a →
    (∀ initial length ptr, length ≠ 0#8 → exec (.calculate initial length ptr) s = .fault .notDrained) ∧
    ∀ ptr, exec (.resultArray ptr) s = .fault .notDrained

/-- R95: SEED, UPDATE and RESULT never stop; a stop of CALCULATE or RESULT_ARRAY is a violation of the host's contract (as a
fault, logs 6 and 7); no step is refused. The last two clauses are the model's choices over the host's moves (log 4): every
address the engine may read or write is backed, and between commands a store of the host to a backed address completes and
changes that byte of memory alone, where R40 (a) names only the stores to a buffer before the CALCULATE word, and at an
address that is not backed it stops (log 8). "Between commands" takes in a response that waits to be taken, where R40 has
the host not write CALCULATE's buffer: that the store completes there too is the choice of log 22. -/
def Obligations.OnlyContractViolationsStop : Prop :=
  (∀ (i : Instr) (s : State) (f : Fault), exec i s = .fault f →
    s.bus.isSome = true ∨
    (∃ initial length ptr, i = .calculate initial length ptr ∧ ¬ BufferReadable s ptr length.toNat) ∨
    ∃ ptr, i = .resultArray ptr ∧ ¬ OutWritable s ptr) ∧
  (∀ (i : Instr) (s : State) (f : Fault), exec i s = .fault f →
    (∃ initial length ptr, i = .calculate initial length ptr) ∨ ∃ ptr, i = .resultArray ptr) ∧
  (∀ (s : State) (r : Refusal), step s ≠ .refused r) ∧
  (∀ (c : Config) (a : Addr), c.readable a = true ∨ c.writable a = true → c.backed a = true) ∧
  ∀ (s : State) (a : Addr) (v : Byte) (rest : List Move), s.atBoundary = true → s.plan = .store a v :: rest →
    step s = if s.cfg.backed a then .next { s with mem := s.mem.write a v, plan := rest }
      else .fault (.hostStoreNotBacked a)

/-- R15: no command reads or writes `INITIAL_VALUE`: with another value of it, everything else comes out the same. -/
def Obligations.NoCommandReadsInitialValue : Prop :=
  ∀ (w : CmdWord) (s t : State) (v : Word), runWord w s = .next t →
    t.cfg.initialValue = s.cfg.initialValue ∧
    runWord w { s with cfg := { s.cfg with initialValue := v } } =
      .next { t with cfg := { t.cfg with initialValue := v } }

/-! ## The step -/

/-- R123: an idle engine that is sent the word of a command executes that command, the word being used up. -/
def Obligations.StepRunsTheDecodedCommand : Prop :=
  ∀ (s : State) (w : CmdWord) (rest : List Move) (i : Instr),
    s.phase = .idle → s.plan = .send w :: rest → decode w = .ok i → step s = exec i { s with plan := rest }

/-- R96: IllegalCommand answers status 1 and data 0; `ACC` and memory are unchanged and no access is made. -/
def Obligations.StepAnswersAnIllegalWord : Prop :=
  ∀ (s : State) (w : CmdWord) (rest : List Move) (e : Illegal),
    s.phase = .idle → s.plan = .send w :: rest → decode w = .error e →
    step s = .next { s with plan := rest, phase := .responding { status := .illegal, data := 0x0000#16 } }

/-- R102: once the response of an illegal word is taken, the engine is in exactly the state it was in before the word. -/
def Obligations.IllegalWordLeavesNoTrace : Prop :=
  ∀ (s : State) (w : CmdWord) (rest : List Move),
    s.phase = .idle → s.plan = .send w :: .take :: rest → legal w = false →
    ∃ t, step s = .next t ∧
      step t = .next { s with plan := rest,
                              responses := s.responses ++ [{ status := .illegal, data := 0x0000#16 }] }

/-- The model's placing of a word (log 5): the next step after `withFetchWord` runs the word's command. -/
def Obligations.FetchWordRunsNext : Prop :=
  ∀ (s : State) (nbits w : Nat) (i : Instr), decodeTableWord nbits w = some i →
    step (s.withFetchWord nbits w) = exec i (makeIdle s)

/-- R124: the response that waits is transferred when the host takes it, and the engine is idle. -/
def Obligations.ResponseIsTaken : Prop :=
  ∀ (s : State) (r : Response) (rest : List Move), s.phase = .responding r → s.plan = .take :: rest →
    step s = .next { s with phase := .idle, plan := rest, responses := s.responses ++ [r] }

/-- R123, R124, R126, with the model's held moves (log 14): the engine waits for a command, and for its response to be taken
before it accepts another. -/
def Obligations.StepWaitsForTheHost : Prop :=
  (∀ (s : State) (r : Response) (w : CmdWord) (rest : List Move), s.phase = .responding r →
    (s.plan = [] ∨ s.plan = .send w :: rest) → step s = .next s) ∧
  ∀ (s : State) (rest : List Move), s.phase = .idle → (s.plan = [] ∨ s.plan = .take :: rest) → step s = .next s

/-- R114, R115, R116: reset abandons whatever the engine is doing; `ACC` = `INITIAL_VALUE`, the engine idle, no response,
and memory, the constants and an access in flight as they were. -/
def Obligations.ResetStep : Prop :=
  ∀ (s : State) (rest : List Move), s.plan = .reset :: rest →
    step s = .next { s with acc := s.cfg.initialValue, phase := .idle, plan := rest }

/-- R22: what the machine holds right after reset, with the default constants (log 1). -/
def Obligations.StateAfterReset : Prop :=
  State.reset.acc = State.reset.cfg.initialValue ∧ State.reset.cfg.polynom = 0x8005#16 ∧
  State.reset.cfg.initialValue = 0x0000#16 ∧
  outs false State.reset = { cmdReady := true, rsp := none, memReq := none }

/-- R123 and R128: a list of words, each sent and its response taken, is executed in order, each whole before the next, and
gives one response each. -/
def Obligations.CommandsRunInOrder : Prop :=
  ∀ (ws : List CmdWord) (rest : List Move) (s : State), s.phase = .idle →
    s.plan = (ws.flatMap fun w => [.send w, .take]) ++ rest →
    Sys2Proof.core.run (2 * ws.length) s =
      ws.foldl (fun o w => andThen o fun u => andThen (runWord w u) fun v => .next (makeIdle v))
        (.next { s with plan := rest })

/-! ## Invariants -/

/-- The model's invariant (memory in canonical form, CALCULATE's index below its length, the access waited for in flight and
backed) is kept by every step. -/
def Obligations.StepKeepsTheInvariant : Prop :=
  ∀ s t : State, s.inv = true → step s = .next t → t.inv = true

/-- The machine after reset has the invariant. -/
def Obligations.ResetHasTheInvariant : Prop := State.reset.inv = true ∧ State.reset.drained = true

/-- Every clock edge keeps the invariant, whatever the pins and whatever a read returns (R120); without a reset it also
keeps the port free of abandoned accesses. -/
def Obligations.EdgeKeepsTheInvariant : Prop :=
  ∀ (p : Pins) (s t : State), s.inv = true → edge p s = .next t →
    t.inv = true ∧ (p.rst = false → s.drained = true → t.drained = true)

/-- R14, R15, R116: no step and no clock edge changes `POLYNOM`, `INITIAL_VALUE` or the map of backed addresses. -/
def Obligations.ConstantsNeverChange : Prop :=
  (∀ s t : State, step s = .next t → t.cfg = s.cfg) ∧
  ∀ (p : Pins) (s t : State), edge p s = .next t → t.cfg = s.cfg

/-- R19: between commands `ACC` is the CRC of all bytes fed since the last seed operation, and every step keeps it so.
That a reset counts as a seed with `INITIAL_VALUE` is the spec's own extension (90 C6); the steps and the host's moves are
the model's (logs 4, 12, 13). -/
def Obligations.AccIsTheCrcOfTheStream : Prop :=
  ∀ (s t : State) (h : Stream), s.atBoundary = true → s.accIs h → step s = .next t →
    t.atBoundary = true ∧ t.accIs (h.after s)

/-- R19 with 90 C6: after reset no byte has been fed and the seed is `INITIAL_VALUE`. -/
def Obligations.ResetStartsAStream : Prop :=
  State.reset.atBoundary = true ∧ State.reset.accIs { seed := State.reset.cfg.initialValue, fed := [] } ∧
  ∀ s : State, (applyReset s).atBoundary = true ∧ (applyReset s).accIs { seed := s.cfg.initialValue, fed := [] }

/-- R21 and R130: between commands a step that changes `ACC` is a reset, or the execution of a SEED, an UPDATE or a
CALCULATE. -/
def Obligations.AccChangesOnlyByCommandOrReset : Prop :=
  ∀ s t : State, s.atBoundary = true → step s = .next t → t.acc ≠ s.acc →
    (∃ rest, s.plan = .reset :: rest) ∨
    ∃ w rest i, s.phase = .idle ∧ s.plan = .send w :: rest ∧ decode w = .ok i ∧ writesAcc i = true

/-- R124: exactly one response per command, in order: a step delivers at most the one response that waits, and only when
the host takes it. -/
def Obligations.ResponsesAreDeliveredInOrder : Prop :=
  ∀ s t : State, step s = .next t →
    t.responses = s.responses ∨
    ∃ r rest, s.phase = .responding r ∧ s.plan = .take :: rest ∧ t.responses = s.responses ++ [r] ∧ t.phase = .idle

/-! ## The clock-edge level -/

/-- R7 and R123: an edge does not change what the end of a command under way is, whatever the memory's delays;
a fault on the way is the command's fault. -/
def Obligations.EdgeKeepsTheCommandsEnd : Prop :=
  ∀ (p : Pins) (s : State), s.inv = true → s.drained = true → s.phase ≠ .idle →
    p.rst = false → p.rspReady = false → p.faithful s → andThen (edge p s) finish = finish s

/-- R7 and R123: the edges from the transfer of a word to its response do exactly what the command level says of the word. -/
def Obligations.ClockedRunIsTheCommand : Prop :=
  ∀ (p : Pins) (ps : List Pins) (s : State), s.inv = true → s.drained = true → s.phase = .idle →
    p.cmdValid = true → Undisturbed (p :: ps) s →
    (∀ (t : State) (r : Response), edges (p :: ps) s = .next t → t.phase = .responding r →
      runWord p.cmdWord s = .next t) ∧
    ∀ f : Fault, edges (p :: ps) s = .fault f → runWord p.cmdWord s = .fault f

/-- R85, R125 and R126: a command ends when the memory completes its accesses, whatever their delays. `edgesLeft` is 0
exactly when no command is under way, is bounded, falls at every edge at which the engine does not wait, and stays at an
edge at which it waits (the first two clauses hold with an access abandoned by a reset in flight too). So a sequence of
edges that holds enough edges without a wait reaches the command's end, and so do 2551 edges with a memory that takes and
completes every access at once. The counts of edges are the model's own (log 11). -/
def Obligations.EveryCommandEnds : Prop :=
  (∀ s : State, s.inv = true → s.edgesLeft ≤ 2551 ∧ (s.edgesLeft = 0 ↔ s.atBoundary = true)) ∧
  (∀ (p : Pins) (s t : State), s.inv = true → s.edgesLeft ≠ 0 → p.rst = false → edge p s = .next t →
    if waitsAt p s then t.edgesLeft = s.edgesLeft ∧ t.phase = s.phase ∧ t.acc = s.acc
    else t.edgesLeft < s.edgesLeft) ∧
  (∀ (ps : List Pins) (s : State), s.inv = true → s.drained = true → s.phase ≠ .idle → Undisturbed ps s →
    s.edgesLeft ≤ movingEdges ps s → edges ps s = finish s) ∧
  ∀ s : State, s.inv = true → s.drained = true → s.phase ≠ .idle → drive 2551 s = finish s

/-- R114 and R116: an edge with `rst` = 1. Memory changes at most by the access in flight (R115). -/
def Obligations.ResetEdge : Prop :=
  ∀ (p : Pins) (s : State), p.rst = true →
    ∃ t, edge p s = .next t ∧ t.acc = s.cfg.initialValue ∧ t.phase = .idle ∧ t.cfg = s.cfg ∧
      t.responses = s.responses ∧ t.accesses = s.accesses ∧
      outs true t = { cmdReady := false, rsp := none, memReq := none } ∧
      outs false t = { cmdReady := true, rsp := none, memReq := none } ∧
      (p.memRspValid = false → t.mem = s.mem ∧ t.bus = s.bus) ∧
      (p.memRspValid = true → t.bus = none ∧
        t.mem = match s.bus with
          | some (.write a v) => s.mem.write a v
          | _                 => s.mem)

/-- R126: the places where an edge without reset leaves the engine where it is. -/
def Obligations.EngineWaitsInThreePlaces : Prop :=
  ∀ (p : Pins) (s t : State), p.rst = false → edge p s = .next t →
    (t.phase = s.phase ↔
      (s.phase = .idle ∧ p.cmdValid = false) ∨
      (s.offered.isSome = true ∧ p.memReqReady = false) ∨
      (s.awaited.isSome = true ∧ p.memRspValid = false) ∨
      (s.offeredResponse.isSome = true ∧ p.rspReady = false))

/-- R28 and R124: a request is held unchanged until it is transferred, and a response, with `ACC`, until it is taken,
also while the memory completes an access abandoned by a reset (R115, log 7); with no access in flight nothing changes. -/
def Obligations.OffersAreHeld : Prop :=
  ∀ (p : Pins) (s : State), p.rst = false →
    (s.offered.isSome = true ∧ p.memReqReady = false) ∨ (s.offeredResponse.isSome = true ∧ p.rspReady = false) →
    ∃ t, edge p s = .next t ∧ t.phase = s.phase ∧ t.acc = s.acc ∧ t.offered = s.offered ∧
      t.offeredResponse = s.offeredResponse ∧ t.responses = s.responses ∧ t.accesses = s.accesses ∧ t.cfg = s.cfg ∧
      (s.bus = none → t = s)

/-- R28 and R39: an access is transferred only when it is offered and taken, and only when the one before is complete. -/
def Obligations.OneAccessOutstanding : Prop :=
  ∀ (p : Pins) (s t : State), edge p s = .next t → t.accesses ≠ s.accesses →
    p.rst = false ∧ p.memReqReady = true ∧ (s.bus = none ∨ p.memRspValid = true) ∧
    ∃ a, s.offered = some a ∧ t.accesses = s.accesses ++ [a] ∧ t.bus = some a

/-- R121 and 93 U5: RESULT_ARRAY's low byte is in memory before its high byte is requested, and until then no other byte
changes; afterwards only the high byte's does. -/
def Obligations.LowByteLandsFirst : Prop :=
  ∀ (p : Pins) (ptr : Addr) (s t : State), s.inv = true → s.drained = true → p.rst = false → edge p s = .next t →
    ((s.phase = .writeRequest ptr .low ∨ s.phase = .writeWait ptr .low) →
      (∀ a, a ≠ ptr → t.mem.read a = s.mem.read a) ∧
      (t.phase = .writeRequest ptr .high → t.mem.read ptr = s.acc.extractLsb' 0 8 ∧ t.acc = s.acc)) ∧
    ((s.phase = .writeRequest ptr .high ∨ s.phase = .writeWait ptr .high) →
      ∀ a, a ≠ ptr + 1#16 → t.mem.read a = s.mem.read a)

/-- R114 and R123: `cmd_ready` is 1 exactly when the engine is idle and not held in reset, and while the engine is not idle
the command channel changes nothing. -/
def Obligations.BusyEngineAcceptsNoCommand : Prop :=
  (∀ (rst : Bool) (s : State), (outs rst s).cmdReady = true ↔ s.phase = .idle ∧ rst = false) ∧
  ∀ (p : Pins) (s : State) (valid : Bool) (w : CmdWord), s.phase ≠ .idle →
    edge { p with cmdValid := valid, cmdWord := w } s = edge p s
end

