-- ==== Sys2Proof/Laws/Crc.lean ====
section
/-! SUPPORT. The unfolding laws of the pure functions of the CRC. -/

namespace Sys2Proof.Machine

@[simp] theorem bitsteps_zero (p acc : Word) (b : Byte) (i : Nat) : bitsteps p b i 0 acc = acc := rfl

theorem bitsteps_succ (p acc : Word) (b : Byte) (i n : Nat) :
    bitsteps p b i (n + 1) acc = bitsteps p b (i + 1) n (bitstep p acc (dataBit b i)) := rfl

/-- A whole update is the rest of an update that has not begun. -/
theorem updateRest_zero (p acc : Word) (b : Byte) : updateRest p acc b 0 = updateFn p acc b := rfl

/-- The last bit step ends the update. -/
theorem updateRest_last (p acc : Word) (b : Byte) : updateRest p acc b 7 = bitstep p acc (dataBit b 7) := rfl

/-- Any other bit step leaves the rest from the next bit. -/
theorem updateRest_next (p acc : Word) (b : Byte) (k : Fin 8) (hk : k ≠ 7) :
    updateRest p acc b k = updateRest p (bitstep p acc (dataBit b k.val)) b (k + 1) := by
  revert hk
  fin_cases k <;> intro hk <;> first | rfl | exact absurd rfl hk

@[simp] theorem crcFn_nil (p s : Word) : crcFn p s [] = s := rfl

@[simp] theorem crcFn_cons (p s : Word) (b : Byte) (bs : List Byte) :
    crcFn p s (b :: bs) = crcFn p (updateFn p s b) bs := rfl

/-- The bit step as one exclusive OR with the polynomial masked by the feedback bit. -/
theorem bitstep_eq_xor (p acc : Word) (d : Bool) :
    bitstep p acc d = (acc <<< 1) ^^^ (if d ^^ crcBit acc then p else 0#16) := by
  unfold bitstep
  cases d <;> cases crcBit acc <;> simp

end Sys2Proof.Machine
end

