-- ==== Sys2Proof/Laws/Memory.lean ====
section
/-! SUPPORT. The laws of the data memory: a byte read back is the byte written, every other byte stays, the canonical form
is kept, and memories in canonical form that read alike are equal. -/

namespace Sys2Proof.Machine

/-- A lower bound on the keys may be lowered. -/
theorem Memory.wfFrom_mono {lo lo' : Nat} {m : Memory} (h : Memory.wfFrom lo m = true) (hle : lo' ≤ lo) :
    Memory.wfFrom lo' m = true := by
  cases m with
  | nil => rfl
  | cons c m =>
    simp only [Memory.wfFrom, Bool.and_eq_true, decide_eq_true_eq] at h ⊢
    exact ⟨⟨⟨by omega, h.1.1.2⟩, h.1.2⟩, h.2⟩

/-- No entry stands below the lower bound. -/
theorem Memory.lookup_below {lo a : Nat} {m : Memory} (h : Memory.wfFrom lo m = true) (ha : a < lo) :
    Memory.lookup m a = Memory.unlisted := by
  induction m generalizing lo with
  | nil => rfl
  | cons c m ih =>
    obtain ⟨k, x⟩ := c
    simp only [Memory.wfFrom, Bool.and_eq_true, decide_eq_true_eq] at h
    have hk : k ≠ a := by omega
    simp only [Memory.lookup, hk, if_false]
    exact ih h.2 (by omega)

theorem Memory.lookup_insert_same {lo a : Nat} {m : Memory} (v : Byte) (h : Memory.wfFrom lo m = true) :
    Memory.lookup (Memory.insert m a v) a = v := by
  induction m generalizing lo with
  | nil => by_cases hv : v = Memory.unlisted <;> simp [Memory.insert, Memory.lookup, hv]
  | cons c m ih =>
    obtain ⟨k, x⟩ := c
    simp only [Memory.wfFrom, Bool.and_eq_true, decide_eq_true_eq] at h
    rcases Nat.lt_trichotomy a k with hlt | heq | hgt
    · have hk : k ≠ a := by omega
      by_cases hv : v = Memory.unlisted
      · simp only [Memory.insert, hlt, if_true, hv, Memory.lookup, hk, if_false]
        exact Memory.lookup_below h.2 (by omega)
      · simp [Memory.insert, hlt, hv, Memory.lookup]
    · subst heq
      by_cases hv : v = Memory.unlisted
      · simp only [Memory.insert, Nat.lt_irrefl, if_false, if_true, hv]
        exact Memory.lookup_below h.2 (by omega)
      · simp [Memory.insert, hv, Memory.lookup]
    · have h1 : ¬ a < k := by omega
      have h2 : ¬ a = k := by omega
      have h3 : ¬ k = a := by omega
      simp only [Memory.insert, h1, h2, if_false, Memory.lookup, h3]
      exact ih h.2

theorem Memory.lookup_insert_other {a b : Nat} (m : Memory) (v : Byte) (hne : b ≠ a) :
    Memory.lookup (Memory.insert m a v) b = Memory.lookup m b := by
  induction m with
  | nil => by_cases hv : v = Memory.unlisted <;> simp [Memory.insert, Memory.lookup, hv, hne.symm]
  | cons c m ih =>
    obtain ⟨k, x⟩ := c
    by_cases hlt : a < k
    · by_cases hv : v = Memory.unlisted <;> simp [Memory.insert, hlt, hv, Memory.lookup, hne.symm]
    · by_cases heq : a = k
      · subst heq
        by_cases hv : v = Memory.unlisted <;> simp [Memory.insert, hv, Memory.lookup, hne.symm]
      · simp only [Memory.insert, hlt, heq, if_false, Memory.lookup, ih]

theorem Memory.wfFrom_insert {lo a : Nat} {m : Memory} (v : Byte) (h : Memory.wfFrom lo m = true) (hlo : lo ≤ a)
    (ha : a < 65536) : Memory.wfFrom lo (Memory.insert m a v) = true := by
  induction m generalizing lo with
  | nil => by_cases hv : v = Memory.unlisted <;> simp [Memory.insert, Memory.wfFrom, hv, hlo, ha]
  | cons c m ih =>
    obtain ⟨k, x⟩ := c
    have h' := h
    simp only [Memory.wfFrom, Bool.and_eq_true, decide_eq_true_eq] at h'
    obtain ⟨⟨⟨hk, hk2⟩, hx⟩, hm⟩ := h'
    by_cases hlt : a < k
    · by_cases hv : v = Memory.unlisted
      · simpa [Memory.insert, hlt, hv] using h
      · have : a + 1 ≤ k := hlt
        simp [Memory.insert, hlt, hv, Memory.wfFrom, hlo, ha, this, hk2, hx, hm]
    · by_cases heq : a = k
      · subst heq
        by_cases hv : v = Memory.unlisted
        · simpa [Memory.insert, hv] using Memory.wfFrom_mono hm (by omega)
        · simp [Memory.insert, hv, Memory.wfFrom, hlo, ha, hm]
      · have := ih hm (by omega)
        simp [Memory.insert, hlt, heq, Memory.wfFrom, hk, hk2, hx, this]

/-- R29: after the write the memory holds the byte. -/
theorem Memory.read_write_same {m : Memory} (a : Addr) (v : Byte) (h : m.wf = true) : (m.write a v).read a = v :=
  Memory.lookup_insert_same v h

/-- A write leaves every other byte. -/
theorem Memory.read_write_other {a b : Addr} (m : Memory) (v : Byte) (hne : b ≠ a) :
    (m.write a v).read b = m.read b :=
  Memory.lookup_insert_other m v fun h => hne (BitVec.eq_of_toNat_eq h)

/-- A write keeps the canonical form. -/
theorem Memory.wf_write {m : Memory} (a : Addr) (v : Byte) (h : m.wf = true) : (m.write a v).wf = true :=
  Memory.wfFrom_insert v h (Nat.zero_le _) a.isLt

theorem Memory.eq_of_lookup_eq {lo : Nat} {m m' : Memory} (h : Memory.wfFrom lo m = true)
    (h' : Memory.wfFrom lo m' = true) (heq : ∀ a, a < 65536 → Memory.lookup m a = Memory.lookup m' a) : m = m' := by
  induction m generalizing lo m' with
  | nil =>
    cases m' with
    | nil => rfl
    | cons c t =>
      obtain ⟨k, x⟩ := c
      simp only [Memory.wfFrom, Bool.and_eq_true, decide_eq_true_eq] at h'
      exact absurd (by simpa [Memory.lookup] using (heq k h'.1.1.2).symm) h'.1.2
  | cons c t ih =>
    obtain ⟨k, x⟩ := c
    have hc := h
    simp only [Memory.wfFrom, Bool.and_eq_true, decide_eq_true_eq] at hc
    cases m' with
    | nil => exact absurd (by simpa [Memory.lookup] using heq k hc.1.1.2) hc.1.2
    | cons c' t' =>
      obtain ⟨k', x'⟩ := c'
      have hc' := h'
      simp only [Memory.wfFrom, Bool.and_eq_true, decide_eq_true_eq] at hc'
      have hkk : k = k' := by
        rcases Nat.lt_trichotomy k k' with hlt | he | hgt
        · have hne : ¬ k' = k := by omega
          have := heq k hc.1.1.2
          simp only [Memory.lookup, if_true, hne, if_false] at this
          exact absurd (this.trans (Memory.lookup_below hc'.2 (by omega))) hc.1.2
        · exact he
        · have hne : ¬ k = k' := by omega
          have := heq k' hc'.1.1.2
          simp only [Memory.lookup, if_true, hne, if_false] at this
          exact absurd (this.symm.trans (Memory.lookup_below hc.2 (by omega))) hc'.1.2
      subst hkk
      have hx : x = x' := by simpa [Memory.lookup] using heq k hc.1.1.2
      subst hx
      have ht : t = t' := by
        refine ih hc.2 hc'.2 fun a ha => ?_
        by_cases hak : k = a
        · subst hak
          rw [Memory.lookup_below hc.2 (by omega), Memory.lookup_below hc'.2 (by omega)]
        · simpa [Memory.lookup, hak] using heq a ha
      rw [ht]

/-- Canonical memories that read alike at every address are equal. -/
theorem Memory.eq_of_read_eq {m m' : Memory} (h : m.wf = true) (h' : m'.wf = true)
    (heq : ∀ a : Addr, m.read a = m'.read a) : m = m' := by
  refine Memory.eq_of_lookup_eq h h' fun a ha => ?_
  have := heq (BitVec.ofNat 16 a)
  simpa [Memory.read, BitVec.toNat_ofNat, Nat.mod_eq_of_lt ha] using this

/-- Performing an access keeps the canonical form. -/
theorem Access.wf_perform (a : Access) {m : Memory} (h : m.wf = true) : (a.perform m).wf = true := by
  cases a with
  | read _ => exact h
  | write a v => exact Memory.wf_write a v h

end Sys2Proof.Machine
end

