-- ==== Sys2Proof/Laws/State.lean ====
section
/-! SUPPORT. What every plain update of the state leaves in every field: one lemma per field per update. -/

namespace Sys2Proof.Machine

variable (s : State)

/-! ## setAcc -/

@[simp] theorem setAcc_cfg (v : Word) : (s.setAcc v).cfg = s.cfg := rfl
@[simp] theorem setAcc_acc (v : Word) : (s.setAcc v).acc = v := rfl
@[simp] theorem setAcc_phase (v : Word) : (s.setAcc v).phase = s.phase := rfl
@[simp] theorem setAcc_mem (v : Word) : (s.setAcc v).mem = s.mem := rfl
@[simp] theorem setAcc_bus (v : Word) : (s.setAcc v).bus = s.bus := rfl
@[simp] theorem setAcc_accesses (v : Word) : (s.setAcc v).accesses = s.accesses := rfl
@[simp] theorem setAcc_plan (v : Word) : (s.setAcc v).plan = s.plan := rfl
@[simp] theorem setAcc_responses (v : Word) : (s.setAcc v).responses = s.responses := rfl

/-! ## setPhase -/

@[simp] theorem setPhase_cfg (ph : Phase) : (s.setPhase ph).cfg = s.cfg := rfl
@[simp] theorem setPhase_acc (ph : Phase) : (s.setPhase ph).acc = s.acc := rfl
@[simp] theorem setPhase_phase (ph : Phase) : (s.setPhase ph).phase = ph := rfl
@[simp] theorem setPhase_mem (ph : Phase) : (s.setPhase ph).mem = s.mem := rfl
@[simp] theorem setPhase_bus (ph : Phase) : (s.setPhase ph).bus = s.bus := rfl
@[simp] theorem setPhase_accesses (ph : Phase) : (s.setPhase ph).accesses = s.accesses := rfl
@[simp] theorem setPhase_plan (ph : Phase) : (s.setPhase ph).plan = s.plan := rfl
@[simp] theorem setPhase_responses (ph : Phase) : (s.setPhase ph).responses = s.responses := rfl

/-! ## setPlan -/

@[simp] theorem setPlan_cfg (pl : List Move) : (s.setPlan pl).cfg = s.cfg := rfl
@[simp] theorem setPlan_acc (pl : List Move) : (s.setPlan pl).acc = s.acc := rfl
@[simp] theorem setPlan_phase (pl : List Move) : (s.setPlan pl).phase = s.phase := rfl
@[simp] theorem setPlan_mem (pl : List Move) : (s.setPlan pl).mem = s.mem := rfl
@[simp] theorem setPlan_bus (pl : List Move) : (s.setPlan pl).bus = s.bus := rfl
@[simp] theorem setPlan_accesses (pl : List Move) : (s.setPlan pl).accesses = s.accesses := rfl
@[simp] theorem setPlan_plan (pl : List Move) : (s.setPlan pl).plan = pl := rfl
@[simp] theorem setPlan_responses (pl : List Move) : (s.setPlan pl).responses = s.responses := rfl

/-! ## setMem -/

@[simp] theorem setMem_cfg (m : Memory) : (s.setMem m).cfg = s.cfg := rfl
@[simp] theorem setMem_acc (m : Memory) : (s.setMem m).acc = s.acc := rfl
@[simp] theorem setMem_phase (m : Memory) : (s.setMem m).phase = s.phase := rfl
@[simp] theorem setMem_mem (m : Memory) : (s.setMem m).mem = m := rfl
@[simp] theorem setMem_bus (m : Memory) : (s.setMem m).bus = s.bus := rfl
@[simp] theorem setMem_accesses (m : Memory) : (s.setMem m).accesses = s.accesses := rfl
@[simp] theorem setMem_plan (m : Memory) : (s.setMem m).plan = s.plan := rfl
@[simp] theorem setMem_responses (m : Memory) : (s.setMem m).responses = s.responses := rfl

/-! ## respond -/

@[simp] theorem respond_cfg (st : Status) (d : Word) : (respond st d s).cfg = s.cfg := rfl
@[simp] theorem respond_acc (st : Status) (d : Word) : (respond st d s).acc = s.acc := rfl
@[simp] theorem respond_phase (st : Status) (d : Word) : (respond st d s).phase = .responding { status := st, data := d } := rfl
@[simp] theorem respond_mem (st : Status) (d : Word) : (respond st d s).mem = s.mem := rfl
@[simp] theorem respond_bus (st : Status) (d : Word) : (respond st d s).bus = s.bus := rfl
@[simp] theorem respond_accesses (st : Status) (d : Word) : (respond st d s).accesses = s.accesses := rfl
@[simp] theorem respond_plan (st : Status) (d : Word) : (respond st d s).plan = s.plan := rfl
@[simp] theorem respond_responses (st : Status) (d : Word) : (respond st d s).responses = s.responses := rfl

/-! ## respondOk -/

@[simp] theorem respondOk_cfg : (respondOk s).cfg = s.cfg := rfl
@[simp] theorem respondOk_acc : (respondOk s).acc = s.acc := rfl
@[simp] theorem respondOk_phase : (respondOk s).phase = .responding { status := .ok, data := 0x0000#16 } := rfl
@[simp] theorem respondOk_mem : (respondOk s).mem = s.mem := rfl
@[simp] theorem respondOk_bus : (respondOk s).bus = s.bus := rfl
@[simp] theorem respondOk_accesses : (respondOk s).accesses = s.accesses := rfl
@[simp] theorem respondOk_plan : (respondOk s).plan = s.plan := rfl
@[simp] theorem respondOk_responses : (respondOk s).responses = s.responses := rfl

/-! ## raiseIllegal -/

@[simp] theorem raiseIllegal_cfg : (raiseIllegal s).cfg = s.cfg := rfl
@[simp] theorem raiseIllegal_acc : (raiseIllegal s).acc = s.acc := rfl
@[simp] theorem raiseIllegal_phase : (raiseIllegal s).phase = .responding { status := .illegal, data := 0x0000#16 } := rfl
@[simp] theorem raiseIllegal_mem : (raiseIllegal s).mem = s.mem := rfl
@[simp] theorem raiseIllegal_bus : (raiseIllegal s).bus = s.bus := rfl
@[simp] theorem raiseIllegal_accesses : (raiseIllegal s).accesses = s.accesses := rfl
@[simp] theorem raiseIllegal_plan : (raiseIllegal s).plan = s.plan := rfl
@[simp] theorem raiseIllegal_responses : (raiseIllegal s).responses = s.responses := rfl

/-! ## takeResponse -/

@[simp] theorem takeResponse_cfg (r : Response) : (takeResponse r s).cfg = s.cfg := rfl
@[simp] theorem takeResponse_acc (r : Response) : (takeResponse r s).acc = s.acc := rfl
@[simp] theorem takeResponse_phase (r : Response) : (takeResponse r s).phase = .idle := rfl
@[simp] theorem takeResponse_mem (r : Response) : (takeResponse r s).mem = s.mem := rfl
@[simp] theorem takeResponse_bus (r : Response) : (takeResponse r s).bus = s.bus := rfl
@[simp] theorem takeResponse_accesses (r : Response) : (takeResponse r s).accesses = s.accesses := rfl
@[simp] theorem takeResponse_plan (r : Response) : (takeResponse r s).plan = s.plan := rfl
@[simp] theorem takeResponse_responses (r : Response) : (takeResponse r s).responses = s.responses ++ [r] := rfl

/-! ## applyReset -/

@[simp] theorem applyReset_cfg : (applyReset s).cfg = s.cfg := rfl
@[simp] theorem applyReset_acc : (applyReset s).acc = s.cfg.initialValue := rfl
@[simp] theorem applyReset_phase : (applyReset s).phase = .idle := rfl
@[simp] theorem applyReset_mem : (applyReset s).mem = s.mem := rfl
@[simp] theorem applyReset_bus : (applyReset s).bus = s.bus := rfl
@[simp] theorem applyReset_accesses : (applyReset s).accesses = s.accesses := rfl
@[simp] theorem applyReset_plan : (applyReset s).plan = s.plan := rfl
@[simp] theorem applyReset_responses : (applyReset s).responses = s.responses := rfl

/-! ## foldByte -/

@[simp] theorem foldByte_cfg (b : Byte) : (foldByte b s).cfg = s.cfg := rfl
@[simp] theorem foldByte_acc (b : Byte) : (foldByte b s).acc = updateFn s.cfg.polynom s.acc b := rfl
@[simp] theorem foldByte_phase (b : Byte) : (foldByte b s).phase = s.phase := rfl
@[simp] theorem foldByte_mem (b : Byte) : (foldByte b s).mem = s.mem := rfl
@[simp] theorem foldByte_bus (b : Byte) : (foldByte b s).bus = s.bus := rfl
@[simp] theorem foldByte_accesses (b : Byte) : (foldByte b s).accesses = s.accesses := rfl
@[simp] theorem foldByte_plan (b : Byte) : (foldByte b s).plan = s.plan := rfl
@[simp] theorem foldByte_responses (b : Byte) : (foldByte b s).responses = s.responses := rfl

end Sys2Proof.Machine
end

