-- ==== Sys2Proof/Laws/Ops.lean ====
section
/-! SUPPORT. One lemma for each shared operation that says everything it can do. -/

namespace Sys2Proof.Machine

/-- The address of the next byte. -/
theorem bufferAddr_succ (ptr : Addr) (i : Nat) : bufferAddr ptr (i + 1) = bufferAddr (ptr + 1#16) i := by
  simp only [bufferAddr, BitVec.add_assoc]
  congr 1
  apply BitVec.eq_of_toNat_eq
  simp only [BitVec.toNat_ofNat, BitVec.toNat_add]
  omega

@[simp] theorem bufferAddr_zero (ptr : Addr) : bufferAddr ptr 0 = ptr := by
  simp [bufferAddr]

theorem bufferAddr_add_one (ptr : Addr) (i : Nat) : bufferAddr ptr i + 1#16 = bufferAddr ptr (i + 1) := by
  apply BitVec.eq_of_toNat_eq
  simp only [bufferAddr, BitVec.toNat_add, BitVec.toNat_ofNat]
  omega

/-- The bytes of a buffer, the first taken apart. -/
theorem bufferBytes_succ (m : Memory) (ptr : Addr) (n : Nat) :
    bufferBytes m ptr (n + 1) = m.read ptr :: bufferBytes m (ptr + 1#16) n := by
  simp only [bufferBytes, List.range_succ_eq_map, List.map_cons, List.map_map, bufferAddr_zero]
  congr 1
  exact List.map_congr_left fun i _ => by simp [bufferAddr_succ]

@[simp] theorem bufferBytes_zero (m : Memory) (ptr : Addr) : bufferBytes m ptr 0 = [] := rfl

/-- A request is transferred exactly when the port is free and the address backed. -/
theorem request_ok_iff {a : Access} {s t : State} :
    request a s = .ok t ↔
      s.bus = none ∧ a.backedBy s.cfg = true ∧ t = { s with bus := some a, accesses := s.accesses ++ [a] } := by
  unfold request
  cases s.bus <;> cases a.backedBy s.cfg <;> simp [eq_comm]

/-- The request of an access left over by a reset has not drained. -/
theorem request_busy {a b : Access} {s : State} (h : s.bus = some b) : request a s = .error .notDrained := by
  simp [request, h]

/-- The request of an unbacked address. -/
theorem request_unbacked {a : Access} {s : State} (h : s.bus = none) (hb : a.backedBy s.cfg = false) :
    request a s = .error (unbackedFault a) := by
  simp [request, h, hb]

/-- A completion changes the memory port and, for a write, memory; nothing else. -/
theorem complete_some {s : State} {a : Access} (h : s.bus = some a) :
    complete s = { s with bus := none, mem := a.perform s.mem } := by
  simp [complete, h]

theorem complete_none {s : State} (h : s.bus = none) : complete s = s := by
  simp [complete, h]

@[simp] theorem complete_bus (s : State) : (complete s).bus = none := by
  unfold complete; split <;> simp_all

/-- A completion leaves every field but the memory and the port. -/
theorem complete_frame (s : State) :
    (complete s).cfg = s.cfg ∧ (complete s).acc = s.acc ∧ (complete s).phase = s.phase ∧
      (complete s).accesses = s.accesses ∧ (complete s).plan = s.plan ∧ (complete s).responses = s.responses := by
  unfold complete; split <;> simp

/-- A read succeeds exactly when the port is free and the address readable; it changes the record of accesses only. -/
theorem memRead_ok_iff {a : Addr} {s : State} {r : Byte × State} :
    memRead a s = .ok r ↔
      s.bus = none ∧ s.cfg.readable a = true ∧
        r = (s.mem.read a, { s with accesses := s.accesses ++ [.read a] }) := by
  unfold memRead
  cases hr : request (.read a) s with
  | error f =>
    simp only [reduceCtorEq, false_iff, not_and]
    intro hb hc
    rw [request_ok_iff (a := .read a) |>.mpr ⟨hb, hc, rfl⟩] at hr
    cases hr
  | ok t =>
    obtain ⟨hb, hc, rfl⟩ := request_ok_iff.mp hr
    have hs : ({ s with bus := none, accesses := s.accesses ++ [.read a] } : State)
        = { s with accesses := s.accesses ++ [.read a] } := by rw [← hb]
    simp only [Except.ok.injEq, complete, Access.perform]
    rw [hs]
    exact ⟨fun h => ⟨hb, hc, h.symm⟩, fun h => h.2.2.symm⟩

/-- A write succeeds exactly when the port is free and the address writable; it changes that byte and the record. -/
theorem memWrite_ok_iff {a : Addr} {v : Byte} {s t : State} :
    memWrite a v s = .ok t ↔
      s.bus = none ∧ s.cfg.writable a = true ∧
        t = { s with mem := s.mem.write a v, accesses := s.accesses ++ [.write a v] } := by
  unfold memWrite
  cases hr : request (.write a v) s with
  | error f =>
    simp only [reduceCtorEq, false_iff, not_and]
    intro hb hc
    rw [request_ok_iff (a := .write a v) |>.mpr ⟨hb, hc, rfl⟩] at hr
    cases hr
  | ok u =>
    obtain ⟨hb, hc, rfl⟩ := request_ok_iff.mp hr
    have hs : ({ s with bus := none, mem := s.mem.write a v, accesses := s.accesses ++ [.write a v] } : State)
        = { s with mem := s.mem.write a v, accesses := s.accesses ++ [.write a v] } := by rw [← hb]
    simp only [Except.ok.injEq, complete, Access.perform]
    rw [hs]
    exact ⟨fun h => ⟨hb, hc, h.symm⟩, fun h => h.2.2.symm⟩

/-- The first thing a fold does with one byte or more. -/
theorem foldBuffer_succ (n : Nat) (a : Addr) (s : State) :
    foldBuffer (n + 1) a s =
      match memRead a s with
      | .error f   => .error f
      | .ok (b, t) => foldBuffer n (a + 1#16) (foldByte b t) := rfl

@[simp] theorem foldBuffer_zero (a : Addr) (s : State) : foldBuffer 0 a s = .ok s := rfl

/-- Everything a fold leaves when it ends: `ACC` and the record of accesses change, and nothing else. -/
theorem foldBuffer_ok {n : Nat} {a : Addr} {s t : State} (h : foldBuffer n a s = .ok t) :
    (n = 0 ∨ s.bus = none) ∧
      t = { s with
        acc := crcFn s.cfg.polynom s.acc (bufferBytes s.mem a n)
        accesses := s.accesses ++ (List.range n).map fun i => .read (bufferAddr a i) } := by
  induction n generalizing a s with
  | zero =>
    cases h
    exact ⟨.inl rfl, by simp⟩
  | succ n ih =>
    rw [foldBuffer_succ] at h
    cases hr : memRead a s with
    | error f => rw [hr] at h; cases h
    | ok r =>
      obtain ⟨hb, _, rfl⟩ := memRead_ok_iff.mp hr
      rw [hr] at h
      obtain ⟨_, rfl⟩ := ih h
      refine ⟨.inr hb, ?_⟩
      simp only [foldByte, State.setAcc, bufferBytes_succ, crcFn_cons, List.range_succ_eq_map, List.map_cons,
        List.map_map, bufferAddr_zero, List.append_assoc, List.cons_append, List.nil_append]
      congr 3
      exact List.map_congr_left fun i _ => by simp [bufferAddr_succ]

/-- A fold over a readable buffer, with no access in flight, ends. -/
theorem foldBuffer_of_readable {n : Nat} {a : Addr} {s : State} (hb : n ≠ 0 → s.bus = none)
    (hr : ∀ i, i < n → s.cfg.readable (bufferAddr a i) = true) :
    foldBuffer n a s = .ok { s with
      acc := crcFn s.cfg.polynom s.acc (bufferBytes s.mem a n)
      accesses := s.accesses ++ (List.range n).map fun i => .read (bufferAddr a i) } := by
  have hex : ∃ t, foldBuffer n a s = .ok t := by
    induction n generalizing a s with
    | zero => exact ⟨s, rfl⟩
    | succ n ih =>
      have h0 := hr 0 (by omega)
      rw [bufferAddr_zero] at h0
      rw [foldBuffer_succ, memRead_ok_iff.mpr ⟨hb (by omega), h0, rfl⟩]
      refine ih (fun _ => hb (by omega)) fun i hi => ?_
      have h1 := hr (i + 1) (by omega)
      rwa [bufferAddr_succ] at h1
  obtain ⟨t, ht⟩ := hex
  rw [ht, (foldBuffer_ok ht).2]

/-- A fold reads and changes neither the phase nor the plan: they may be set before it or after it. -/
theorem foldBuffer_setPhase (n : Nat) (a : Addr) (s : State) (ph : Phase) :
    foldBuffer n a (s.setPhase ph) = (foldBuffer n a s).map fun t => t.setPhase ph := by
  induction n generalizing a s with
  | zero => rfl
  | succ n ih =>
    rw [foldBuffer_succ, foldBuffer_succ]
    cases hr : memRead a s with
    | ok r =>
      obtain ⟨hb, hc, rfl⟩ := memRead_ok_iff.mp hr
      rw [memRead_ok_iff (s := s.setPhase ph) |>.mpr ⟨hb, hc, rfl⟩]
      exact ih (a + 1#16) (foldByte (s.mem.read a) { s with accesses := s.accesses ++ [.read a] })
    | error f =>
      have he : memRead a (s.setPhase ph) = .error f := by
        revert hr
        unfold memRead request
        simp only [setPhase_bus, setPhase_cfg]
        cases s.bus <;> cases Access.backedBy (.read a) s.cfg <;> simp
      rw [he]
      rfl

/-- Everything the loop and the response of CALCULATE leave. -/
theorem finishBuffer_ok {n : Nat} {a : Addr} {s t : State} (h : finishBuffer n a s = .ok t) :
    (n = 0 ∨ s.bus = none) ∧
      t = respondOk { s with
        acc := crcFn s.cfg.polynom s.acc (bufferBytes s.mem a n)
        accesses := s.accesses ++ (List.range n).map fun i => .read (bufferAddr a i) } := by
  unfold finishBuffer at h
  cases hf : foldBuffer n a s with
  | error f => rw [hf] at h; cases h
  | ok u =>
    rw [hf] at h
    cases h
    obtain ⟨h1, rfl⟩ := foldBuffer_ok hf
    exact ⟨h1, rfl⟩

/-- The second store of RESULT_ARRAY ends exactly when the port is free and the address writable. -/
theorem storeHigh_ok_iff {ptr : Addr} {s t : State} :
    storeHigh ptr s = .ok t ↔
      s.bus = none ∧ s.cfg.writable (bufferAddr ptr 1) = true ∧
        t = respondOk { s with
          mem := s.mem.write (bufferAddr ptr 1) (highByte s.acc)
          accesses := s.accesses ++ [.write (bufferAddr ptr 1) (highByte s.acc)] } := by
  unfold storeHigh
  cases hw : memWrite (outAddr ptr .high) (outValue s.acc .high) s with
  | error f =>
    simp only [Except.map, reduceCtorEq, false_iff, not_and]
    intro hb hc
    rw [memWrite_ok_iff (a := outAddr ptr .high) |>.mpr ⟨hb, hc, rfl⟩] at hw
    cases hw
  | ok u =>
    obtain ⟨hb, hc, rfl⟩ := memWrite_ok_iff.mp hw
    simp only [Except.map, Except.ok.injEq]
    exact ⟨fun h => ⟨hb, hc, h.symm⟩, fun h => h.2.2.symm⟩

/-- Both stores of RESULT_ARRAY end exactly when the port is free and both addresses are writable. -/
theorem storeBoth_ok_iff {ptr : Addr} {s t : State} :
    storeBoth ptr s = .ok t ↔
      s.bus = none ∧ s.cfg.writable ptr = true ∧ s.cfg.writable (bufferAddr ptr 1) = true ∧
        t = respondOk { s with
          mem := (s.mem.write ptr (lowByte s.acc)).write (bufferAddr ptr 1) (highByte s.acc)
          accesses := s.accesses ++
            [.write ptr (lowByte s.acc), .write (bufferAddr ptr 1) (highByte s.acc)] } := by
  unfold storeBoth
  cases hw : memWrite (outAddr ptr .low) (outValue s.acc .low) s with
  | error f =>
    simp only [reduceCtorEq, false_iff, not_and]
    intro hb hc
    rw [memWrite_ok_iff (a := outAddr ptr .low) |>.mpr ⟨hb, hc, rfl⟩] at hw
    cases hw
  | ok u =>
    obtain ⟨hb, hc, rfl⟩ := memWrite_ok_iff.mp hw
    simp only [storeHigh_ok_iff, List.append_assoc, List.cons_append, List.nil_append]
    exact ⟨fun h => ⟨hb, hc, h.2⟩, fun h => ⟨hb, h.2.2⟩⟩

/-- The outcome of an operation is a next state exactly when the operation ends in it. -/
@[simp] theorem outcomeOf_next {e : Except Fault State} {t : State} : outcomeOf e = .next t ↔ e = .ok t := by
  cases e <;> simp [outcomeOf]

@[simp] theorem outcomeOf_fault {e : Except Fault State} {f : Fault} : outcomeOf e = .fault f ↔ e = .error f := by
  cases e <;> simp [outcomeOf]

@[simp] theorem outcomeOf_ne_refused {e : Except Fault State} {r : Refusal} : outcomeOf e ≠ .refused r := by
  cases e <;> simp [outcomeOf]

@[simp] theorem andThen_next (s : State) (f : State → Host.Outcome State Fault Refusal) :
    andThen (.next s) f = f s := rfl

@[simp] theorem andThen_fault (r : Fault) (f : State → Host.Outcome State Fault Refusal) :
    andThen (.fault r) f = .fault r := rfl

end Sys2Proof.Machine
end

