-- ==== Sys2Proof/Laws/Clock.lean ====
section
/-! SUPPORT. What one clock edge can do, said once: the memory's side, the engine's side, and the invariant in its parts. -/

namespace Sys2Proof.Machine

/-- The invariant in its parts. -/
theorem inv_iff (s : State) :
    s.inv = true ↔ s.mem.wf = true ∧ s.phase.wf = true ∧ (∀ a, s.awaited = some a → s.bus = some a) ∧
      ∀ a, s.bus = some a → a.backedBy s.cfg = true := by
  unfold State.inv State.busWf
  cases s.awaited <;> cases s.bus <;> simp [and_assoc]

/-- With no access abandoned and none awaited, the port is free. -/
theorem bus_none_of_drained {s : State} (h : s.drained = true) (ha : s.awaited = none) : s.bus = none := by
  unfold State.drained at h
  rw [ha] at h
  simpa using h

/-- A completion keeps the canonical form of memory. -/
theorem complete_mem_wf {s : State} (h : s.mem.wf = true) : (complete s).mem.wf = true := by
  unfold complete
  split
  · exact h
  · exact Access.wf_perform _ h

/-- The memory's side of an edge changes the memory and the port only. -/
theorem memoryEdge_frame (p : Pins) (s : State) :
    (memoryEdge p s).cfg = s.cfg ∧ (memoryEdge p s).acc = s.acc ∧ (memoryEdge p s).phase = s.phase ∧
      (memoryEdge p s).accesses = s.accesses ∧ (memoryEdge p s).plan = s.plan ∧
      (memoryEdge p s).responses = s.responses ∧
      (memoryEdge p s).bus = if p.memRspValid then none else s.bus := by
  obtain ⟨h1, h2, h3, h4, h5, h6⟩ := complete_frame s
  unfold memoryEdge
  cases p.memRspValid <;> simp [*]

theorem memoryEdge_mem_wf {s : State} (p : Pins) (h : s.mem.wf = true) : (memoryEdge p s).mem.wf = true := by
  unfold memoryEdge
  split
  · exact complete_mem_wf h
  · exact h

/-- With nothing in flight the memory's side of an edge does nothing. -/
theorem memoryEdge_of_free {s : State} (p : Pins) (h : s.bus = none) : memoryEdge p s = s := by
  unfold memoryEdge
  split
  · exact complete_none h
  · rfl

/-- The transfer of an access. -/
theorem transfer_ok_iff {a : Access} {ph : Phase} {s t : State} :
    transfer a ph s = .ok t ↔
      s.bus = none ∧ a.backedBy s.cfg = true ∧
        t = { s with bus := some a, accesses := s.accesses ++ [a], phase := ph } := by
  unfold transfer
  cases hr : request a s with
  | error f =>
    simp only [Except.map, reduceCtorEq, false_iff, not_and]
    intro hb hc
    rw [request_ok_iff.mpr ⟨hb, hc, rfl⟩] at hr
    cases hr
  | ok u =>
    obtain ⟨hb, hc, rfl⟩ := request_ok_iff.mp hr
    simp only [Except.map, Except.ok.injEq]
    exact ⟨fun h => ⟨hb, hc, h.symm⟩, fun h => h.2.2.symm⟩

/-- What a move of the engine that is no transfer of an access leaves. -/
structure Internal (s t : State) : Prop where
  offered  : s.offered = none
  mem      : t.mem = s.mem
  bus      : t.bus = s.bus
  accesses : t.accesses = s.accesses
  cfg      : t.cfg = s.cfg
  plan     : t.plan = s.plan
  wf       : s.phase.wf = true → t.phase.wf = true
  awaited  : t.awaited = none
  moved    : t.phase ≠ s.phase

theorem Buffer.next_index {b : Buffer} (h : b.index.toNat < b.length.toNat) (hl : b.isLast = false) :
    b.next.index.toNat = b.index.toNat + 1 ∧ b.next.index.toNat < b.next.length.toNat := by
  simp only [Buffer.isLast, decide_eq_false_iff_not] at hl
  have := b.length.isLt
  simp only [Buffer.next, BitVec.toNat_add, BitVec.toNat_ofNat]
  omega

theorem length_pos {n : Byte} (h : n ≠ 0#8) : 0 < n.toNat :=
  Nat.pos_of_ne_zero fun h0 => h (BitVec.eq_of_toNat_eq (by simpa using h0))

theorem latchedEdge_internal (w : CmdWord) {s : State} (hp : s.phase = .latched w) : Internal s (latchedEdge w s) := by
  have ho : s.offered = none := by simp [State.offered, hp]
  unfold latchedEdge
  split
  case h_4 x n p _ =>
    dsimp only
    split
    · exact ⟨ho, rfl, rfl, rfl, rfl, rfl, fun _ => rfl, rfl, by simp [hp]⟩
    · next hn =>
      exact ⟨ho, rfl, rfl, rfl, rfl, rfl, fun _ => by simpa [Phase.wf] using length_pos hn, rfl, by simp [hp]⟩
  all_goals exact ⟨ho, rfl, rfl, rfl, rfl, rfl, fun _ => rfl, rfl, by simp [hp]⟩

/-- Everything the engine's side of an edge can do: wait, transfer an access, or move on by itself. -/
theorem engineEdge_ok {p : Pins} {s t : State} (h : engineEdge p s = .ok t) :
    (waitsAt p s ∧ t = s) ∨
    (¬ waitsAt p s ∧ ∃ a ph, s.offered = some a ∧ p.memReqReady = true ∧ s.bus = none ∧ a.backedBy s.cfg = true ∧
      t = { s with bus := some a, accesses := s.accesses ++ [a], phase := ph } ∧ (s.phase.wf = true → ph.wf = true) ∧
      t.awaited = some a ∧ ph ≠ s.phase) ∨
    (¬ waitsAt p s ∧ Internal s t) := by
  unfold engineEdge at h
  split at h
  · next hp =>
    cases hv : p.cmdValid
    · simp only [hv] at h
      cases h
      exact .inl ⟨.inl ⟨hp, hv⟩, rfl⟩
    · simp only [hv, if_true] at h
      cases h
      refine .inr (.inr ⟨by simp [waitsAt, hp, hv, State.offered, State.awaited, State.offeredResponse], ?_⟩)
      have : ∀ w, (acceptWord w).wf = true ∧ acceptWord w ≠ .idle ∧ (s.setPhase (acceptWord w)).awaited = none := by
        intro w
        unfold acceptWord
        split <;> simp [Phase.wf, State.awaited]
      obtain ⟨h1, h2, h3⟩ := this p.cmdWord
      exact ⟨by simp [State.offered, hp], rfl, rfl, rfl, rfl, rfl, fun _ => h1, h3, by simpa [hp] using h2⟩
  · next w hp =>
    cases h
    exact .inr (.inr ⟨by simp [waitsAt, hp, State.offered, State.awaited, State.offeredResponse],
      latchedEdge_internal w hp⟩)
  · next byte bit hp =>
    cases h
    refine .inr (.inr ⟨by simp [waitsAt, hp, State.offered, State.awaited, State.offeredResponse], ?_⟩)
    have ho : s.offered = none := by simp [State.offered, hp]
    unfold updatingEdge
    dsimp only
    split
    · exact ⟨ho, rfl, rfl, rfl, rfl, rfl, fun _ => rfl, rfl, by simp [hp]⟩
    · exact ⟨ho, rfl, rfl, rfl, rfl, rfl, fun _ => rfl, rfl, by simp [hp]⟩
  · next buf hp =>
    cases hv : p.memReqReady
    · simp only [hv] at h
      cases h
      exact .inl ⟨.inr (.inl ⟨by simp [State.offered, hp], hv⟩), rfl⟩
    · simp only [hv, if_true] at h
      obtain ⟨hb, hc, rfl⟩ := transfer_ok_iff.mp h
      refine .inr (.inl ⟨by simp [waitsAt, hp, hv, State.offered, State.awaited, State.offeredResponse], _, _,
        by simp [State.offered, hp], rfl, hb, hc, rfl, ?_, rfl, by simp [hp]⟩)
      simp [hp, Phase.wf]
  · next buf hp =>
    cases hv : p.memRspValid
    · simp only [hv] at h
      cases h
      exact .inl ⟨.inr (.inr (.inl ⟨by simp [State.awaited, hp], hv⟩)), rfl⟩
    · simp only [hv, if_true] at h
      cases h
      refine .inr (.inr ⟨by simp [waitsAt, hp, hv, State.offered, State.awaited, State.offeredResponse], ?_⟩)
      exact ⟨by simp [State.offered, hp], rfl, rfl, rfl, rfl, rfl, by simp [hp, Phase.wf], rfl, by simp [hp]⟩
  · next buf byte bit hp =>
    cases h
    refine .inr (.inr ⟨by simp [waitsAt, hp, State.offered, State.awaited, State.offeredResponse], ?_⟩)
    have ho : s.offered = none := by simp [State.offered, hp]
    have hi : s.phase.wf = true → buf.index.toNat < buf.length.toNat := by simp [hp, Phase.wf]
    unfold foldingEdge
    dsimp only
    split
    · cases hl : buf.isLast
      · exact ⟨ho, rfl, rfl, rfl, rfl, rfl, fun h => by simpa [Phase.wf] using (Buffer.next_index (hi h) hl).2, rfl, by simp [hp]⟩
      · exact ⟨ho, rfl, rfl, rfl, rfl, rfl, fun _ => rfl, rfl, by simp [hp]⟩
    · exact ⟨ho, rfl, rfl, rfl, rfl, rfl, fun h => by simpa [Phase.wf] using hi h, rfl, by simp [hp]⟩
  · next ptr o hp =>
    cases hv : p.memReqReady
    · simp only [hv] at h
      cases h
      exact .inl ⟨.inr (.inl ⟨by simp [State.offered, hp], hv⟩), rfl⟩
    · simp only [hv, if_true] at h
      obtain ⟨hb, hc, rfl⟩ := transfer_ok_iff.mp h
      exact .inr (.inl ⟨by simp [waitsAt, hp, hv, State.offered, State.awaited, State.offeredResponse], _, _,
        by simp [State.offered, hp], rfl, hb, hc, rfl, fun _ => rfl, rfl, by simp [hp]⟩)
  · next ptr o hp =>
    cases hv : p.memRspValid
    · simp only [hv] at h
      cases h
      exact .inl ⟨.inr (.inr (.inl ⟨by simp [State.awaited, hp], hv⟩)), rfl⟩
    · simp only [hv, if_true] at h
      cases h
      refine .inr (.inr ⟨by simp [waitsAt, hp, hv, State.offered, State.awaited, State.offeredResponse], ?_⟩)
      have ho : s.offered = none := by simp [State.offered, hp]
      cases o
      · exact ⟨ho, rfl, rfl, rfl, rfl, rfl, fun _ => rfl, rfl, by simp [hp, writtenEdge]⟩
      · exact ⟨ho, rfl, rfl, rfl, rfl, rfl, fun _ => rfl, rfl, by simp [hp, writtenEdge]⟩
  · next r hp =>
    cases hv : p.rspReady
    · simp only [hv] at h
      cases h
      exact .inl ⟨.inr (.inr (.inr ⟨by simp [State.offeredResponse, hp], hv⟩)), rfl⟩
    · simp only [hv, if_true] at h
      cases h
      refine .inr (.inr ⟨by simp [waitsAt, hp, hv, State.offered, State.awaited, State.offeredResponse], ?_⟩)
      exact ⟨by simp [State.offered, hp], rfl, rfl, rfl, rfl, rfl, fun _ => rfl, rfl, by simp [hp]⟩

/-- The waits depend on the phase and the pins only. -/
theorem waitsAt_memoryEdge (p : Pins) (s : State) : waitsAt p (memoryEdge p s) ↔ waitsAt p s := by
  obtain ⟨_, h2, h3, _⟩ := memoryEdge_frame p s
  unfold waitsAt State.offered State.awaited State.offeredResponse
  rw [h2, h3]

/-- What the engine offers and awaits is not changed by the memory's side of an edge. -/
theorem offered_memoryEdge (p : Pins) (s : State) :
    (memoryEdge p s).offered = s.offered ∧ (memoryEdge p s).awaited = s.awaited ∧
      (memoryEdge p s).offeredResponse = s.offeredResponse := by
  obtain ⟨_, h2, h3, _⟩ := memoryEdge_frame p s
  unfold State.offered State.awaited State.offeredResponse
  rw [h2, h3]
  exact ⟨rfl, rfl, rfl⟩

/-- An edge without reset that answers a next state is the engine's side after the memory's. -/
theorem edge_next {p : Pins} {s t : State} (hr : p.rst = false) :
    edge p s = .next t ↔ engineEdge p (memoryEdge p s) = .ok t := by
  unfold edge
  rw [hr]
  simp

/-- A latched word takes at least one edge. -/
theorem wordEdges_pos (w : CmdWord) : 0 < wordEdges w := by
  unfold wordEdges
  split <;> omega

/-- The measure depends on the phase only. -/
theorem edgesLeft_of_phase {s t : State} (h : t.phase = s.phase) : t.edgesLeft = s.edgesLeft := by
  unfold State.edgesLeft
  rw [h]

@[simp] theorem movingEdges_nil (s : State) : movingEdges [] s = 0 := rfl

/-- The first edge of a sequence that answers a next state counts unless the engine waits there. -/
theorem movingEdges_cons {p : Pins} {s t : State} (ps : List Pins) (h : edge p s = .next t) :
    movingEdges (p :: ps) s = (if waitsAt p s then 0 else 1) + movingEdges ps t := by
  simp only [movingEdges, h]

end Sys2Proof.Machine
end

