-- ==== Sys2Proof/Laws/Command.lean ====
section
/-! SUPPORT. The command level: what its operations do not depend on, and everything a word and the end of a command leave. -/

namespace Sys2Proof.Machine

/-! ## The operations do not depend on the plan or the phase -/

/-- A request neither reads nor changes the plan. -/
theorem request_setPlan (a : Access) (s : State) (pl) :
    request a (s.setPlan pl) = (request a s).map fun t => t.setPlan pl := by
  unfold request; simp only [setPlan_bus, setPlan_cfg]
  cases s.bus <;> cases a.backedBy s.cfg <;> rfl

/-- A write neither reads nor changes the plan. -/
theorem memWrite_setPlan (a v) (s : State) (pl) :
    memWrite a v (s.setPlan pl) = (memWrite a v s).map fun t => t.setPlan pl := by
  unfold memWrite; rw [request_setPlan]
  cases request (.write a v) s with
  | error f => rfl
  | ok t => simp only [Except.map]; unfold complete; simp only [setPlan_bus]; split <;> rfl

/-- A fold neither reads nor changes the plan. -/
theorem foldBuffer_setPlan (n : Nat) (a : Addr) (s : State) (pl : List Move) :
    foldBuffer n a (s.setPlan pl) = (foldBuffer n a s).map fun t => t.setPlan pl := by
  induction n generalizing a s with
  | zero => rfl
  | succ n ih =>
    rw [foldBuffer_succ, foldBuffer_succ]
    cases hr : memRead a s with
    | ok r =>
      obtain ⟨hb, hc, rfl⟩ := memRead_ok_iff.mp hr
      rw [memRead_ok_iff (s := s.setPlan pl) |>.mpr ⟨hb, hc, rfl⟩]
      exact ih (a + 1#16) (foldByte (s.mem.read a) { s with accesses := s.accesses ++ [.read a] })
    | error f =>
      have he : memRead a (s.setPlan pl) = .error f := by
        revert hr
        unfold memRead request
        simp only [setPlan_bus, setPlan_cfg]
        cases s.bus <;> cases Access.backedBy (.read a) s.cfg <;> simp
      rw [he]
      rfl

/-- The two stores neither read nor change the plan. -/
theorem storeBoth_setPlan (p) (s : State) (pl) :
    storeBoth p (s.setPlan pl) = (storeBoth p s).map fun t => t.setPlan pl := by
  unfold storeBoth; rw [setPlan_acc, memWrite_setPlan]
  cases memWrite (outAddr p .low) (outValue s.acc .low) s with
  | error f => rfl
  | ok t =>
    simp only [Except.map, storeHigh, setPlan_acc]
    rw [memWrite_setPlan]
    cases memWrite (outAddr p .high) (outValue t.acc .high) t <;> rfl

/-- A request neither reads nor changes the phase. -/
theorem request_setPhase (a : Access) (s : State) (ph) :
    request a (s.setPhase ph) = (request a s).map fun t => t.setPhase ph := by
  unfold request; simp only [setPhase_bus, setPhase_cfg]
  cases s.bus <;> cases a.backedBy s.cfg <;> rfl

/-- A write neither reads nor changes the phase. -/
theorem memWrite_setPhase (a v) (s : State) (ph) :
    memWrite a v (s.setPhase ph) = (memWrite a v s).map fun t => t.setPhase ph := by
  unfold memWrite; rw [request_setPhase]
  cases request (.write a v) s with
  | error f => rfl
  | ok t => simp only [Except.map]; unfold complete; simp only [setPhase_bus]; split <;> rfl

/-- The end of CALCULATE does not depend on the phase it starts in. -/
theorem finishBuffer_setPhase (n a) (s : State) (ph) : finishBuffer n a (s.setPhase ph) = finishBuffer n a s := by
  unfold finishBuffer
  rw [foldBuffer_setPhase]
  cases foldBuffer n a s <;> rfl

/-- The end of RESULT_ARRAY does not depend on the phase it starts in. -/
theorem storeHigh_setPhase (p) (s : State) (ph) : storeHigh p (s.setPhase ph) = storeHigh p s := by
  unfold storeHigh; rw [setPhase_acc, memWrite_setPhase]
  cases memWrite (outAddr p .high) (outValue s.acc .high) s <;> rfl

/-- RESULT_ARRAY does not depend on the phase it starts in. -/
theorem storeBoth_setPhase (p) (s : State) (ph) : storeBoth p (s.setPhase ph) = storeBoth p s := by
  unfold storeBoth; rw [setPhase_acc, memWrite_setPhase]
  cases memWrite (outAddr p .low) (outValue s.acc .low) s with
  | error f => rfl
  | ok t => exact storeHigh_setPhase p t ph

/-- One byte or more of CALCULATE: the first read, its fold, and then the rest. -/
theorem finishBuffer_succ (n a) (s : State) : finishBuffer (n+1) a s =
   match request (.read a) s with
   | .error f => .error f
   | .ok t => finishBuffer n (a + 1#16) (foldByte (t.mem.read a) (complete t)) := by
  unfold finishBuffer
  rw [foldBuffer_succ]; unfold memRead
  cases request (.read a) s <;> rfl

/-! ## A word, and a command carried to its end -/

/-- What a word does does not depend on the phase it finds. -/
theorem runWord_setPhase (w : CmdWord) (s : State) (ph) : runWord w (s.setPhase ph) = runWord w s := by
  unfold runWord
  cases decode w with
  | error e => rfl
  | ok i =>
    cases i with
    | seed _ => rfl
    | update _ => rfl
    | result => rfl
    | calculate x n p =>
      simp only [exec, execCalculate]
      rw [show (s.setPhase ph).setAcc (zextInitial x) = (s.setAcc (zextInitial x)).setPhase ph from rfl, finishBuffer_setPhase]
    | resultArray p =>
      simp only [exec, execResultArray]
      rw [storeBoth_setPhase]

/-- What a word does neither reads nor changes the plan. -/
theorem runWord_setPlan (w : CmdWord) (s : State) (pl : List Move) :
    runWord w (s.setPlan pl) = andThen (runWord w s) fun t => .next (t.setPlan pl) := by
  unfold runWord
  cases decode w with
  | error e => rfl
  | ok i =>
    cases i with
    | seed _ => rfl
    | update _ => rfl
    | result => rfl
    | calculate x n p =>
      simp only [exec, execCalculate, finishBuffer]
      rw [show (s.setPlan pl).setAcc (zextInitial x) = (s.setAcc (zextInitial x)).setPlan pl from rfl, foldBuffer_setPlan]
      cases foldBuffer n.toNat p (s.setAcc (zextInitial x)) <;> rfl
    | resultArray p =>
      simp only [exec, execResultArray]
      rw [storeBoth_setPlan]
      cases storeBoth p s <;> rfl

/-- A word that ends leaves a response waiting, and the plan, the constants, the port and the taken responses as they were. -/
theorem runWord_phase {w : CmdWord} {s t : State} (h : runWord w s = .next t) :
    (∃ r, t.phase = .responding r) ∧
      t.plan = s.plan ∧ t.cfg = s.cfg ∧ t.bus = s.bus ∧ t.responses = s.responses := by
  unfold runWord at h
  cases hd : decode w with
  | error e => rw [hd] at h; cases h; simp
  | ok i =>
    simp only [hd] at h
    cases i with
    | seed v => cases h; simp
    | update v => cases h; simp
    | result => cases h; simp
    | calculate x n p =>
      simp only [exec, execCalculate, outcomeOf_next] at h
      obtain ⟨_, rfl⟩ := finishBuffer_ok h
      simp
    | resultArray p =>
      simp only [exec, execResultArray, outcomeOf_next] at h
      obtain ⟨_, _, _, rfl⟩ := storeBoth_ok_iff.mp h
      simp

/-- No word is refused. -/
theorem runWord_ne_refused (w s r) : runWord w s ≠ .refused r := by
  unfold runWord
  split
  · next i _ => cases i <;> simp [exec, execSeed, execUpdate, execCalculate, execResult, execResultArray]
  · simp

/-- A word keeps the canonical form of memory. -/
theorem runWord_mem_wf {w : CmdWord} {s t : State} (hm : s.mem.wf = true) (h : runWord w s = .next t) :
    t.mem.wf = true := by
  unfold runWord at h
  cases hd : decode w with
  | error e => rw [hd] at h; cases h; exact hm
  | ok i =>
    simp only [hd] at h
    cases i with
    | seed v => cases h; exact hm
    | update v => cases h; exact hm
    | result => cases h; exact hm
    | calculate x n p =>
      simp only [exec, execCalculate, outcomeOf_next] at h
      obtain ⟨_, rfl⟩ := finishBuffer_ok h
      exact hm
    | resultArray p =>
      simp only [exec, execResultArray, outcomeOf_next] at h
      obtain ⟨_, _, _, rfl⟩ := storeBoth_ok_iff.mp h
      exact Memory.wf_write _ _ (Memory.wf_write _ _ hm)

/-- The first edge of a latched word does not change what the word does. -/
theorem finish_latched {w : CmdWord} (s : State) : finish (latchedEdge w s) = runWord w s := by
  unfold latchedEdge runWord
  cases decode w with
  | error e => rfl
  | ok i =>
    cases i with
    | seed v => rfl
    | result => rfl
    | update b =>
      simp only [exec, execUpdate, foldByte, ← updateRest_zero]
      rw [updateRest_next _ _ _ 0 (by decide)]
      rfl
    | calculate x n p =>
      dsimp only
      split
      · next h => subst h; rfl
      · next h =>
        simp only [finish, setPhase_phase, exec, execCalculate, Buffer.left, Buffer.addr, finishBuffer_setPhase]
        simp
    | resultArray p =>
      simp only [finish, setPhase_phase, exec, execResultArray, storeBoth_setPhase]

/-- What carrying a command to its end leaves. -/
theorem finish_facts {s t : State} (hm : s.mem.wf = true) (h : finish s = .next t) :
    t.mem.wf = true ∧ t.atBoundary = true ∧ t.cfg = s.cfg ∧ (t.bus = s.bus ∨ t.bus = none) ∧ t.responses = s.responses := by
  unfold finish at h
  split at h
  · next hp => cases h; simp [State.atBoundary, hp, hm]
  · next w hp =>
    obtain ⟨⟨r, h1⟩, _, h2, h3, h4⟩ := runWord_phase h
    exact ⟨runWord_mem_wf hm h, by simp [State.atBoundary, h1], h2, .inl h3, h4⟩
  · cases h; exact ⟨hm, rfl, rfl, .inl rfl, rfl⟩
  · rw [outcomeOf_next] at h; obtain ⟨_, rfl⟩ := finishBuffer_ok h; exact ⟨hm, rfl, rfl, .inl rfl, rfl⟩
  · rw [outcomeOf_next] at h; obtain ⟨_, rfl⟩ := finishBuffer_ok h
    have := complete_frame s
    exact ⟨complete_mem_wf hm, rfl, this.1, .inr (by simp), this.2.2.2.2.2⟩
  · rw [outcomeOf_next] at h; obtain ⟨_, rfl⟩ := finishBuffer_ok h; exact ⟨hm, rfl, rfl, .inl rfl, rfl⟩
  · rw [outcomeOf_next] at h; obtain ⟨_, _, _, rfl⟩ := storeBoth_ok_iff.mp h
    exact ⟨Memory.wf_write _ _ (Memory.wf_write _ _ hm), rfl, rfl, .inl rfl, rfl⟩
  · rw [outcomeOf_next] at h; obtain ⟨_, _, rfl⟩ := storeHigh_ok_iff.mp h
    exact ⟨(Memory.wf_write _ _ hm), rfl, rfl, .inl rfl, rfl⟩
  · rw [outcomeOf_next] at h; obtain ⟨_, _, rfl⟩ := storeHigh_ok_iff.mp h
    have := complete_frame s
    exact ⟨(Memory.wf_write _ _ (complete_mem_wf hm)), rfl, this.1, .inr (by simp), this.2.2.2.2.2⟩
  · cases h
    have := complete_frame s
    exact ⟨complete_mem_wf hm, rfl, this.1, .inr (by simp), this.2.2.2.2.2⟩
  · next hp => cases h; simp [State.atBoundary, hp, hm]

/-- What the engine may read is backed. -/
theorem backed_of_readable {c : Config} {a : Addr} (h : c.readable a = true) : c.backed a = true := by
  simp only [Config.readable, Config.backed, List.any_eq_true, Bool.and_eq_true] at h ⊢
  obtain ⟨r, hr, hh, _⟩ := h
  exact ⟨r, hr, hh⟩

/-- What the engine may write is backed. -/
theorem backed_of_writable {c : Config} {a : Addr} (h : c.writable a = true) : c.backed a = true := by
  simp only [Config.writable, Config.backed, List.any_eq_true, Bool.and_eq_true] at h ⊢
  obtain ⟨r, hr, hh, _⟩ := h
  exact ⟨r, hr, hh⟩

/-- A store by the host changes that byte of memory and nothing else. -/
theorem hostStore_ok {a v} {s t : State} (h : hostStore a v s = .next t) : t = s.setMem (s.mem.write a v) := by
  unfold hostStore at h; split at h
  · cases h; rfl
  · cases h

/-- Between commands the invariant is the canonical form of memory and the backing of an access in flight. -/
theorem inv_boundary {s : State} (hm : s.mem.wf = true) (hp : s.atBoundary = true) (hb : ∀ a, s.bus = some a → a.backedBy s.cfg = true) :
    s.inv = true := by
  rw [inv_iff]
  unfold State.atBoundary at hp
  refine ⟨hm, ?_, ?_, hb⟩
  · cases h : s.phase <;> simp_all [Phase.wf]
  · intro a ha; unfold State.awaited at ha
    cases h : s.phase <;> simp_all

end Sys2Proof.Machine
end

