-- ==== Sys2Proof/Laws/Decode.lean ====
section
/-! SUPPORT. Fields and words as numbers: with these, a claim about the encoding is linear arithmetic. -/

namespace Sys2Proof

theorem toNat_append_eq {n m : Nat} (x : BitVec n) (y : BitVec m) :
    (x ++ y).toNat = x.toNat * 2 ^ m + y.toNat := by
  rw [BitVec.toNat_append, ← Nat.shiftLeft_add_eq_or_of_lt y.isLt, Nat.shiftLeft_eq]

theorem opField_toNat (w : CmdWord) : (opField w).toNat = w.toNat / 2 ^ 32 := by
  have := w.isLt
  simp only [opField, BitVec.extractLsb'_toNat, Nat.shiftRight_eq_div_pow]
  omega

theorem upperField_toNat (w : CmdWord) : (upperField w).toNat = w.toNat / 2 ^ 16 % 2 ^ 16 := by
  simp only [upperField, BitVec.extractLsb'_toNat, Nat.shiftRight_eq_div_pow]

theorem lowerField_toNat (w : CmdWord) : (lowerField w).toNat = w.toNat % 2 ^ 16 := by
  simp only [lowerField, BitVec.extractLsb'_toNat, Nat.shiftRight_zero]

theorem aboveByteField_toNat (w : CmdWord) : (aboveByteField w).toNat = w.toNat / 2 ^ 8 % 2 ^ 24 := by
  simp only [aboveByteField, BitVec.extractLsb'_toNat, Nat.shiftRight_eq_div_pow]

theorem byteField_toNat (w : CmdWord) : (byteField w).toNat = w.toNat % 2 ^ 8 := by
  simp only [byteField, BitVec.extractLsb'_toNat, Nat.shiftRight_zero]

theorem initialField_toNat (w : CmdWord) : (initialField w).toNat = w.toNat / 2 ^ 24 % 2 ^ 8 := by
  simp only [initialField, BitVec.extractLsb'_toNat, Nat.shiftRight_eq_div_pow]

theorem lengthField_toNat (w : CmdWord) : (lengthField w).toNat = w.toNat / 2 ^ 16 % 2 ^ 8 := by
  simp only [lengthField, BitVec.extractLsb'_toNat, Nat.shiftRight_eq_div_pow]

theorem operandField_toNat (w : CmdWord) : (operandField w).toNat = w.toNat % 2 ^ 32 := by
  simp only [operandField, BitVec.extractLsb'_toNat, Nat.shiftRight_zero]

/-- The opcode of a command (R53). -/
def Instr.opcode : Instr → Nat
  | .seed _          => 0x01
  | .update _        => 0x02
  | .calculate _ _ _ => 0x03
  | .result          => 0x04
  | .resultArray _   => 0x05

/-- The operand bits of a command as a number (R47 to R51). -/
def Instr.operandNat : Instr → Nat
  | .seed value                  => value.toNat
  | .update byte                 => byte.toNat
  | .calculate initial length ptr => initial.toNat * 2 ^ 24 + length.toNat * 2 ^ 16 + ptr.toNat
  | .result                      => 0
  | .resultArray ptr             => ptr.toNat

theorem encode_toNat (i : Instr) : (encode i).toNat = i.opcode * 2 ^ 32 + i.operandNat := by
  cases i <;> simp only [encode, toNat_append_eq, BitVec.toNat_ofNat, Instr.opcode, Instr.operandNat] <;> omega

end Sys2Proof
end

