-- ==== Sys2Proof/Laws/PerInstr.lean ====
section
/-! SUPPORT. Facts about every command as syntax, one lemma per constructor: the fields of the word a command encodes to
are the ones its format gives (spec/30_encoding.md R46 to R51). -/

namespace Sys2Proof.Laws.EncodesItsFields

/-- The word holds the command's opcode in `op` and its operands below it. -/
def Statement (i : Instr) : Prop :=
  (opField (encode i)).toNat = i.opcode ∧ (operandField (encode i)).toNat = i.operandNat

theorem seed (value : Word) : Statement (.seed value) := by
  have := value.isLt
  simp only [Statement, opField_toNat, operandField_toNat, encode_toNat, Instr.opcode, Instr.operandNat]
  omega

theorem update (byte : Byte) : Statement (.update byte) := by
  have := byte.isLt
  simp only [Statement, opField_toNat, operandField_toNat, encode_toNat, Instr.opcode, Instr.operandNat]
  omega

theorem calculate (initial length : Byte) (ptr : Addr) : Statement (.calculate initial length ptr) := by
  have := initial.isLt
  have := length.isLt
  have := ptr.isLt
  simp only [Statement, opField_toNat, operandField_toNat, encode_toNat, Instr.opcode, Instr.operandNat]
  omega

theorem result : Statement .result := by
  simp only [Statement, opField_toNat, operandField_toNat, encode_toNat, Instr.opcode, Instr.operandNat]
  omega

theorem resultArray (ptr : Addr) : Statement (.resultArray ptr) := by
  have := ptr.isLt
  simp only [Statement, opField_toNat, operandField_toNat, encode_toNat, Instr.opcode, Instr.operandNat]
  omega

end Sys2Proof.Laws.EncodesItsFields
end

