-- ==== Sys2Proof/Tests/Slice0.lean ====
section
/-! SUPPORT. Tests whose expected values stand in spec/ (mostly spec/95_test_vectors.md), the smoke test of WellFormed, and
a witness for every statement that has hypotheses: a concrete state and operands that meet them, one conjunct a clause. -/

open Sys2Proof Sys2Proof.Machine

namespace Sys2Proof.Tests

/-! ## Helpers -/

/-- The next state of an outcome, if it is one. -/
def nextOf : Host.Outcome State Fault Refusal → Option State
  | .next s    => some s
  | .fault _   => none
  | .refused _ => none

/-- The fault of an outcome, if it is one. -/
def faultOf : Host.Outcome State Fault Refusal → Option Fault
  | .next _    => none
  | .fault f   => some f
  | .refused _ => none

/-- The machine after reset, with this accumulator. -/
def withAcc (acc : Word) : State := State.reset.setAcc acc

/-- The memory that holds these bytes from an address upwards, wrapping. -/
def bytesAt : Addr → List Byte → Memory → Memory
  | _, [], m      => m
  | a, b :: bs, m => bytesAt (a + 1#16) bs (m.write a b)

/-- The machine after reset, with these bytes in memory. -/
def withBytes (a : Addr) (bs : List Byte) : State := State.reset.setMem (bytesAt a bs [])

/-- The machine after reset, with the host's moves. -/
def withPlan (plan : List Move) : State := State.reset.setPlan plan

/-- The machine after reset, with its response waiting and the host's moves. -/
def waitingWith (r : Response) (plan : List Move) : State := (withPlan plan).setPhase (.responding r)

/-- An instance of which only the addresses up to 0x01FF are backed, and those up to 0x00FF not writable for the engine. -/
def smallMap : State :=
  { State.reset with cfg := { Config.default with map :=
      [{ first := 0x0000#16, last := 0x00FF#16, readable := true, writable := false },
       { first := 0x0100#16, last := 0x01FF#16, readable := true, writable := true }] } }

/-- The machine after reset with another pair of constants. -/
def withConstants (p i : Word) : State :=
  { State.reset with cfg := { Config.default with polynom := p, initialValue := i }, acc := i }

/-- The machine with a write left in flight by an abandoned RESULT_ARRAY. -/
def leftOver : State := { State.reset with bus := some (.write 0x0200#16 0xDD#8) }

/-- The machine in the middle of CALCULATE, its read in flight. -/
def midRead : State :=
  { withBytes 0x0040#16 [0x41#8] with
    phase := .readWait { ptr := 0x0040#16, length := 1#8, index := 0#8 }, bus := some (.read 0x0040#16) }

/-- The ASCII bytes of section 2.5's stream. -/
def nineBytes : List Byte := [0x31#8, 0x32#8, 0x33#8, 0x34#8, 0x35#8, 0x36#8, 0x37#8, 0x38#8, 0x39#8]

/-- Pins with nothing offered and nothing answered. -/
def quiet : Pins :=
  { rst := false, cmdValid := false, cmdWord := 0#40, rspReady := false, memReqReady := false, memRspValid := false,
    memRspRdata := 0#8 }

/-! ## Well-formed lines (R59): one ill-formed line for each check -/

theorem test_refused_lines :
    (Line.seed 65536).error = some .seedValueTooWide ∧
    (Line.update 256).error = some .updateByteTooWide ∧
    (Line.calculate 256 0 0).error = some .calculateInitialTooWide ∧
    (Line.calculate 0 65536 0).error = some .calculatePtrTooWide ∧
    (Line.calculate 0 0 256).error = some .calculateLengthTooWide ∧
    (Line.resultArray 65536).error = some .resultArrayPtrTooWide := by decide

theorem test_refused_lines_give_no_word :
    (Line.seed 65536).wellFormed = false ∧ (Line.calculate 0 0 256).assemble.toOption = none := by decide

/-- Section 4, programs 1 and 2. -/
theorem test_assembled_lines :
    (Line.calculate 0x00 0x0100 9).assemble.toOption = some 0x0300090100#40 ∧
    (Line.seed 0xFFFF).assemble.toOption = some 0x010000FFFF#40 ∧
    (Line.resultArray 0x01FF).assemble.toOption = some 0x05000001FF#40 := by decide

/-! ## Decoding: words written out bit by bit from R46 to R51 and R53, and section 3.5 -/

/-- op 00000001, reserved 16 zeros, value. -/
theorem test_decode_seed :
    decodeTableWord 40 0b0000000100000000000000001011111011101111 = some (.seed 0xBEEF#16) := by decide

/-- op 00000010, reserved 24 zeros, byte. -/
theorem test_decode_update :
    decodeTableWord 40 0b0000001000000000000000000000000010000001 = some (.update 0x81#8) := by decide

/-- op 00000011, initial 10100101, length 00000111, ptr 0001001000110100. -/
theorem test_decode_calculate :
    decodeTableWord 40 0b0000001110100101000001110001001000110100 = some (.calculate 0xA5#8 7#8 0x1234#16) := by decide

/-- op 00000100, reserved 32 zeros. -/
theorem test_decode_result :
    decodeTableWord 40 0b0000010000000000000000000000000000000000 = some .result := by decide

/-- op 00000101, reserved 16 zeros, ptr. -/
theorem test_decode_resultArray :
    decodeTableWord 40 0b0000010100000000000000000001001000110100 = some (.resultArray 0x1234#16) := by decide

theorem test_decode_reserved_bits :
    legal 0x01FFFF0000#40 = false ∧ legal 0x0200000100#40 = false ∧ legal 0x0400000001#40 = false ∧
    legal 0x0500011234#40 = false ∧ legal 0x03FFFFFFFF#40 = true := by decide

theorem test_decode_reserved_opcodes :
    legal 0x0000000000#40 = false ∧ legal 0x0600000000#40 = false ∧ legal 0xFFFFFFFFFF#40 = false := by decide

/-! ## The pure functions: sections 1.1, 2.1, 2.2, 2.5, 2.7 -/

theorem test_update_fn :
    updateFn 0x8005#16 0x0000#16 0x00#8 = 0x0000#16 ∧ updateFn 0x8005#16 0x0000#16 0x41#8 = 0x030C#16 ∧
    updateFn 0x8005#16 0xFFFF#16 0x00#8 = 0xFD02#16 ∧ updateFn 0x8005#16 0x1234#16 0xA5#8 = 0x37B2#16 := by decide

theorem test_crc_fn :
    crcFn 0x8005#16 0x0000#16 nineBytes = 0xBCDD#16 ∧ crcFn 0x1021#16 0x0000#16 nineBytes = 0x9184#16 := by decide +kernel

/-! ## The commands -/

/-- Section 3.1, first row. -/
theorem test_seed :
    (nextOf (exec (.seed 0xFFFF#16) (withAcc 0x030C#16))).map (fun t => (t.acc, t.phase)) =
      some (0xFFFF#16, .responding { status := .ok, data := 0x0000#16 }) := by decide

/-- Section 4, program 3, rows 4 and 6: a stream continued without a seed. -/
theorem test_update_continues :
    (nextOf (exec (.update 0xFF#8) (withAcc 0xFD02#16))).map State.acc = some 0x820F#16 ∧
    (nextOf (exec (.update 0x41#8) (withAcc 0x820F#16))).map State.acc = some 0x0F00#16 := by decide

/-- Section 4, program 5, rows 2 and 4: another polynomial. -/
theorem test_update_other_polynomial :
    (nextOf (exec (.update 0x00#8) (withConstants 0x1021#16 0xFFFF#16))).map State.acc = some 0xE1F0#16 ∧
    updateFn 0x1021#16 0x0000#16 0x41#8 = 0xB1CA#16 := by decide

/-- Section 3.4: a buffer across the top of the address space. -/
theorem test_calculate_wraps :
    (nextOf (exec (.calculate 0x12#8 4#8 0xFFFE#16) (withBytes 0xFFFE#16 [0xDE#8, 0xAD#8, 0xBE#8, 0xEF#8]))).map
      (fun t => (t.acc, t.accesses)) =
      some (0xD8CF#16, [.read 0xFFFE#16, .read 0xFFFF#16, .read 0x0000#16, .read 0x0001#16]) := by decide +kernel

/-- Section 3.4: a seed of 0xFF is zero-extended, and the length bounds the reads. -/
theorem test_calculate_initial_and_length :
    (nextOf (exec (.calculate 0xFF#8 9#8 0x0100#16) (withBytes 0x0100#16 nineBytes))).map State.acc = some 0x4EFD#16 ∧
    (nextOf (exec (.calculate 0x00#8 5#8 0x0100#16) (withBytes 0x0100#16 nineBytes))).map State.acc
      = some 0xAA25#16 := by decide +kernel

/-- Section 3.2. -/
theorem test_result :
    (nextOf (exec .result (withAcc 0x030C#16))).map (fun t => (t.acc, t.phase)) =
      some (0x030C#16, .responding { status := .ok, data := 0x030C#16 }) := by decide

/-- Section 3.3: the odd pointer. -/
theorem test_resultArray_odd :
    (nextOf (exec (.resultArray 0x01FF#16) (withAcc 0x030C#16))).map (fun t => (t.mem, t.accesses)) =
      some ([(0x01FF, 0x0C#8), (0x0200, 0x03#8)], [.write 0x01FF#16 0x0C#8, .write 0x0200#16 0x03#8]) := by decide

/-- Section 3.3: the pointer at the top of memory wraps. -/
theorem test_resultArray_wraps :
    (nextOf (exec (.resultArray 0xFFFF#16) (withAcc 0xD8CF#16))).map State.mem =
      some [(0x0000, 0xD8#8), (0xFFFF, 0xCF#8)] := by decide

/-- Section 3.6: RESULT's opcode with a reserved bit answers `{1, 0x0000}` and not the accumulator. -/
theorem test_illegal_word :
    (nextOf (runWord 0x0400000001#40 (withAcc 0x030C#16))).map (fun t => (t.acc, t.phase, t.accesses)) =
      some (0x030C#16, .responding { status := .illegal, data := 0x0000#16 }, []) := by decide

/-- Section 3.6 and R58: the response words. -/
theorem test_response_words :
    Response.word { status := .illegal, data := 0x0000#16 } = 0x10000#17 ∧
    Response.word { status := .ok, data := 0x030C#16 } = 0x0030C#17 := by decide

/-! ## The step and the clock edge -/

/-- A word placed for the step runs from reset. -/
theorem test_withFetchWord :
    (nextOf (step (State.reset.withFetchWord 40 0x0200000041))).map State.acc = some 0x030C#16 := by decide

/-- Section 3.7, second row. -/
theorem test_reset_idle :
    (nextOf (step { withConstants 0x8005#16 0xFFFF#16 with acc := 0xBCDD#16, plan := [.reset] })).map
      (fun t => (t.acc, t.phase)) = some (0xFFFF#16, .idle) := by decide

/-- Section 3.7, last row, the second write not yet transferred: the first byte stays, no response comes. -/
theorem test_reset_in_resultArray :
    (nextOf (edge { quiet with rst := true }
      { withBytes 0x0200#16 [0xDD#8] with acc := 0xBCDD#16, phase := .writeRequest 0x0200#16 .high })).map
      (fun t => (t.acc, t.phase, t.mem)) = some (0x0000#16, .idle, [(0x0200, 0xDD#8)]) := by decide

/-- Section 2.1's table, step 0 to 1: the first edge with UPDATE 0x41 latched does one bit step. -/
theorem test_edge_bit_step :
    (nextOf (edge quiet (State.reset.setPhase (.latched 0x0200000041#40)))).map State.acc = some 0x8005#16 := by decide

/-- R120: a read that another agent raced folds whatever the port returned. -/
theorem test_edge_raced_read :
    (nextOf (edge { quiet with memRspValid := true, memRspRdata := 0x99#8 } midRead)).map State.phase =
      some (.folding { ptr := 0x0040#16, length := 1#8, index := 0#8 } 0x99#8 0) := by decide

/-! ## Witnesses: encoding -/

theorem witness_DecodeAndEncodeAreInverse :
    (decode 0x03FFFFFFFF#40).toOption = some (.calculate 0xFF#8 0xFF#8 0xFFFF#16) := by decide

theorem witness_DecodeFollowsTheOpcodeMap :
    (opcodeRow .SEED).matches 0x010000FFFF#40 = true ∧ (opcodeRow .UPDATE).matches 0x02000000FF#40 = true ∧
    (opcodeRow .CALCULATE).matches 0x03FFFFFFFF#40 = true ∧ (opcodeRow .RESULT).matches 0x0400000000#40 = true ∧
    (opcodeRow .RESULT_ARRAY).matches 0x050000FFFF#40 = true := by decide

theorem witness_IllegalWordsAndTheirAnswer :
    legal 0x00FFFFFFFF#40 = false ∧ legal 0x0600000000#40 = false ∧ legal 0x0100010000#40 = false ∧
    legal 0x0500010000#40 = false ∧ legal 0x0200000100#40 = false ∧ legal 0x0400000001#40 = false ∧
    opField 0x03FFFFFFFF#40 = 0x03#8 := by decide

theorem witness_EveryWordAnswersOneResponse :
    (nextOf (runWord 0x0400000000#40 (withAcc 0xFFFF#16))).isSome = true ∧
    (nextOf (runWord 0x0600000000#40 (withAcc 0xFFFF#16))).isSome = true := by decide

/-! ## Witnesses: the pure functions -/

theorem witness_BitStepRule :
    true ≠ (0x0000#16).getLsbD 15 ∧ true = (0x8000#16).getLsbD 15 := by decide

theorem witness_BitStepAsWires : 1 ≤ 15 ∧ 15 ≤ 15 ∧ 1 ≤ 14 ∧ 14 ≤ 14 ∧ 14 ≠ 2 := by decide

/-- The chain is section 2.1's trace. -/
theorem witness_UpdateIsEightBitSteps :
    0x8005#16 = bitstep 0x8005#16 0x0000#16 ((0x41#8).getLsbD 0) ∧
    0x800F#16 = bitstep 0x8005#16 0x8005#16 ((0x41#8).getLsbD 1) ∧
    0x801B#16 = bitstep 0x8005#16 0x800F#16 ((0x41#8).getLsbD 2) ∧
    0x8033#16 = bitstep 0x8005#16 0x801B#16 ((0x41#8).getLsbD 3) ∧
    0x8063#16 = bitstep 0x8005#16 0x8033#16 ((0x41#8).getLsbD 4) ∧
    0x80C3#16 = bitstep 0x8005#16 0x8063#16 ((0x41#8).getLsbD 5) ∧
    0x0186#16 = bitstep 0x8005#16 0x80C3#16 ((0x41#8).getLsbD 6) ∧
    0x030C#16 = bitstep 0x8005#16 0x0186#16 ((0x41#8).getLsbD 7) := by decide

theorem witness_ZeroStreamKeepsZero : ∀ b ∈ [0x00#8, 0x00#8, 0x00#8, 0x00#8], b = 0x00#8 := by decide

theorem witness_DataEntersAtTheTop : 0 ≤ 7 ∧ 7 ≤ 7 := by decide

theorem witness_UpdateIsABijection : (0x8005#16).getLsbD 0 = true ∧ (0x8004#16).getLsbD 0 = false := by decide

/-! ## Witnesses: the commands -/

theorem witness_UpdateIsDeterministic : (withAcc 0xFFFF#16).cfg.polynom = (withAcc 0x0000#16).cfg.polynom := by decide

theorem witness_CalculateCompletes :
    (255#8 ≠ 0#8 → State.reset.bus = none) ∧ BufferReadable State.reset 0xFFFF#16 (255#8).toNat := by
  unfold BufferReadable; decide +kernel

/-- A length of 0 with an access in flight and a pointer that is not backed. -/
theorem witness_CalculateCompletes_empty :
    (0#8 ≠ 0#8 → leftOver.bus = none) ∧ BufferReadable smallMap 0xBEEF#16 (0#8).toNat := by
  unfold BufferReadable; decide

theorem witness_CalculateEqualsStreaming :
    (4#8 ≠ 0#8 → smallMap.bus = none) ∧ BufferReadable smallMap 0x01FC#16 (4#8).toNat := by
  unfold BufferReadable; decide

theorem witness_CalculateFaultsAtTheFirstUnreadableByte :
    smallMap.bus = none ∧ 2 < (3#8).toNat ∧ BufferReadable smallMap 0x01FE#16 2 ∧
    smallMap.cfg.readable (bufferAddr 0x01FE#16 2) = false := by
  unfold BufferReadable; decide

theorem witness_ResultIsIdempotent :
    (withAcc 0xBCDD#16).phase = .idle ∧
    (∀ i ∈ [Instr.result, .resultArray 0xFFFF#16, .result], i = .result ∨ ∃ p, i = .resultArray p) ∧
    (nextOf (execAll [.result, .resultArray 0xFFFF#16, .result] (withAcc 0xBCDD#16))).isSome = true := by
  refine ⟨by decide, ?_, by decide⟩
  simp

theorem witness_ResultArrayCompletes :
    State.reset.bus = none ∧ OutWritable State.reset 0xFFFF#16 := by unfold OutWritable; decide

theorem witness_ResultArrayIsLittleEndian :
    State.reset.bus = none ∧ OutWritable State.reset 0xFFFF#16 ∧ State.reset.mem.wf = true ∧
    0x0001#16 ≠ 0xFFFF#16 ∧ 0x0001#16 ≠ 0xFFFF#16 + 1#16 := by unfold OutWritable; decide

theorem witness_ResultArrayRoundTrip :
    (withAcc 0xABCD#16).bus = none ∧ OutWritable (withAcc 0xABCD#16) 0x0000#16 ∧ (withAcc 0xABCD#16).mem.wf = true := by
  unfold OutWritable; decide

theorem witness_ResultArrayFaultsAtTheFirstUnwritableByte :
    smallMap.bus = none ∧ smallMap.cfg.writable 0x00FF#16 = false ∧
    smallMap.cfg.writable 0x01FF#16 = true ∧ smallMap.cfg.writable (0x01FF#16 + 1#16) = false := by decide

theorem witness_CommandFrame :
    (nextOf (exec (.resultArray 0xFFFF#16) (withAcc 0x1234#16))).isSome = true ∧ writesAcc (.resultArray 0xFFFF#16) = false ∧
    ¬ storesTo (.resultArray 0xFFFF#16) 0x0001#16 ∧ ¬ storesTo (.seed 0xFFFF#16) 0x0000#16 := by
  unfold storesTo; decide

theorem witness_AccessesOfEveryWord :
    (nextOf (runWord 0x03FF020000#40 State.reset)).isSome = true ∧
    (nextOf (runWord 0x050000FFFF#40 State.reset)).isSome = true ∧
    (nextOf (runWord 0xFFFFFFFFFF#40 State.reset)).isSome = true := by decide

theorem witness_MemoryCommandsNeedADrainedPort :
    leftOver.bus = some (.write 0x0200#16 0xDD#8) ∧ 1#8 ≠ 0#8 := by decide

theorem witness_OnlyContractViolationsStop :
    faultOf (exec (.calculate 0#8 3#8 0x01FE#16) smallMap) = some (.notReadable 0x0200#16) ∧
    faultOf (exec (.resultArray 0x01FF#16) smallMap) = some (.notWritable 0x0200#16) ∧
    faultOf (exec (.resultArray 0x0000#16) leftOver) = some .notDrained ∧
    smallMap.cfg.readable 0x00FF#16 = true ∧ smallMap.cfg.writable 0x01FF#16 = true ∧
    (smallMap.setPlan [.store 0x00FF#16 0x41#8]).atBoundary = true ∧
    (smallMap.setPlan [.store 0x00FF#16 0x41#8]).plan = .store 0x00FF#16 0x41#8 :: [] ∧
    smallMap.cfg.backed 0x01FF#16 = true ∧ smallMap.cfg.backed 0x0200#16 = false := by decide

/-- The clause about host stores while a response waits (log 22), at the last backed address and at the first that is not. -/
theorem witness_OnlyContractViolationsStop_waiting :
    ((smallMap.setPlan [.store 0x01FF#16 0x41#8]).setPhase (.responding { status := .ok, data := 0#16 })).atBoundary
      = true ∧
    ((smallMap.setPlan [.store 0x01FF#16 0x41#8]).setPhase (.responding { status := .ok, data := 0#16 })).plan
      = .store 0x01FF#16 0x41#8 :: [] ∧
    smallMap.cfg.backed 0x01FF#16 = true ∧
    ((smallMap.setPlan [.store 0x0200#16 0x41#8]).setPhase (.responding { status := .ok, data := 0#16 })).plan
      = .store 0x0200#16 0x41#8 :: [] ∧
    smallMap.cfg.backed 0x0200#16 = false := by decide

/-- R40 (a): the host fills a buffer that the engine may read and not write, and CALCULATE folds it (section 3.4). -/
theorem test_host_store_read_only :
    (nextOf (Sys2Proof.core.run 2
      (smallMap.setPlan [.store 0x0040#16 0x41#8, .send 0x0300010040#40]))).map State.acc = some 0x030C#16 ∧
    faultOf (step (smallMap.setPlan [.store 0x0200#16 0x41#8])) = some (.hostStoreNotBacked 0x0200#16) := by decide

theorem witness_NoCommandReadsInitialValue :
    (nextOf (runWord 0x0200000041#40 (withConstants 0x8005#16 0xFFFF#16))).isSome = true := by decide

/-! ## Witnesses: the step -/

theorem witness_StepRunsTheDecodedCommand :
    (withPlan [.send 0x0400000000#40]).phase = .idle ∧
    (withPlan [.send 0x0400000000#40]).plan = .send 0x0400000000#40 :: [] ∧
    (decode 0x0400000000#40).toOption = some .result := by decide

theorem witness_StepAnswersAnIllegalWord :
    (withPlan [.send 0x0600000000#40]).phase = .idle ∧
    (withPlan [.send 0x0600000000#40]).plan = .send 0x0600000000#40 :: [] ∧
    decode 0x0600000000#40 = .error (.reservedOpcode 0x06#8) := ⟨by decide, by decide, rfl⟩

theorem witness_IllegalWordLeavesNoTrace :
    (withPlan [.send 0x0600000000#40, .take]).phase = .idle ∧
    (withPlan [.send 0x0600000000#40, .take]).plan = .send 0x0600000000#40 :: .take :: [] ∧
    legal 0x0600000000#40 = false := by decide

theorem witness_FetchWordRunsNext : decodeTableWord 40 0x05FFFF0000 = none ∧
    decodeTableWord 40 0x050000FFFF = some (.resultArray 0xFFFF#16) := by decide

theorem witness_ResponseIsTaken :
    (waitingWith { status := .ok, data := 0x030C#16 } [.take]).phase =
      .responding { status := .ok, data := 0x030C#16 } ∧
    (waitingWith { status := .ok, data := 0x030C#16 } [.take]).plan = .take :: [] := by decide

theorem witness_StepWaitsForTheHost :
    (waitingWith { status := .ok, data := 0#16 } []).phase = .responding { status := .ok, data := 0#16 } ∧
    (waitingWith { status := .ok, data := 0#16 } []).plan = [] ∧
    (waitingWith { status := .ok, data := 0#16 } [.send 0#40]).plan = .send 0#40 :: [] ∧
    (withPlan []).phase = .idle ∧ (withPlan []).plan = [] ∧ (withPlan [.take]).plan = .take :: [] := by decide

theorem witness_ResetStep : ({ midRead with plan := [.reset] } : State).plan = .reset :: [] := by decide

theorem witness_CommandsRunInOrder :
    (withPlan [.send 0x0100000000#40, .take, .send 0x0600000000#40, .take]).phase = .idle ∧
    (withPlan [.send 0x0100000000#40, .take, .send 0x0600000000#40, .take]).plan =
      ([0x0100000000#40, 0x0600000000#40].flatMap fun w => [Move.send w, .take]) ++ [] := by decide

/-! ## Witnesses: invariants -/

theorem witness_StepKeepsTheInvariant :
    midRead.inv = true ∧ (nextOf (step midRead)).map State.acc = some 0x030C#16 := by decide

theorem witness_EdgeKeepsTheInvariant :
    midRead.inv = true ∧ midRead.drained = true ∧ quiet.rst = false ∧
    (nextOf (edge { quiet with memRspValid := true, memRspRdata := 0x41#8 } midRead)).isSome = true := by decide

theorem witness_ConstantsNeverChange :
    (nextOf (step (withPlan [.reset]))).isSome = true ∧
    (nextOf (edge { quiet with rst := true } midRead)).isSome = true := by decide

theorem witness_AccIsTheCrcOfTheStream :
    (withPlan [.send 0x0200000041#40]).atBoundary = true ∧
    (withPlan [.send 0x0200000041#40]).accIs { seed := 0x0000#16, fed := [] } ∧
    (nextOf (step (withPlan [.send 0x0200000041#40]))).isSome = true := by unfold State.accIs; decide

theorem witness_AccChangesOnlyByCommandOrReset :
    (withPlan [.send 0x010000FFFF#40]).atBoundary = true ∧
    (nextOf (step (withPlan [.send 0x010000FFFF#40]))).map State.acc = some 0xFFFF#16 ∧
    (withPlan [.send 0x010000FFFF#40]).acc ≠ 0xFFFF#16 := by decide

theorem witness_ResponsesAreDeliveredInOrder :
    (nextOf (step (waitingWith { status := .illegal, data := 0#16 } [.take]))).map State.responses =
      some [{ status := .illegal, data := 0#16 }] := by decide

/-! ## Witnesses: the clock-edge level -/

theorem witness_EdgeKeepsTheCommandsEnd :
    midRead.inv = true ∧ midRead.drained = true ∧ midRead.phase ≠ .idle ∧ (promptPins midRead).rst = false ∧
    (promptPins midRead).rspReady = false ∧ (promptPins midRead).faithful midRead := by
  refine ⟨by decide, by decide, by decide, rfl, rfl, ?_⟩
  intro a _ h
  cases h
  rfl

/-- Edges that carry UPDATE 0x41 from the transfer of its word to its response. -/
def updateEdges : List Pins :=
  [{ quiet with cmdValid := true, cmdWord := 0x0200000041#40 }, quiet, quiet, quiet, quiet, quiet, quiet, quiet, quiet]

/-- Edges with no reset, no answer from the memory and the response left waiting are undisturbed. -/
theorem undisturbed_of_quiet : ∀ (ps : List Pins) (s : State),
    (∀ p ∈ ps, p.rst = false ∧ p.rspReady = false ∧ p.memRspValid = false) → Undisturbed ps s := by
  intro ps
  induction ps with
  | nil => intro s _; trivial
  | cons p ps ih =>
    intro s h
    obtain ⟨h1, h2, h3⟩ := h p (List.mem_cons_self ..)
    refine ⟨h1, h2, ?_, fun t _ => ih t fun q hq => h q (List.mem_cons_of_mem _ hq)⟩
    intro a hv
    rw [h3] at hv
    cases hv

theorem witness_ClockedRunIsTheCommand :
    State.reset.inv = true ∧ State.reset.drained = true ∧ State.reset.phase = .idle ∧
    Undisturbed updateEdges State.reset ∧
    (nextOf (edges updateEdges State.reset)).map (fun t => (t.acc, t.phase)) =
      some (0x030C#16, .responding { status := .ok, data := 0x0000#16 }) :=
  ⟨by decide, by decide, by decide, undisturbed_of_quiet _ _ (by decide), by decide⟩

/-- The second clause: the write of an unwritable byte faults when its request is transferred. -/
theorem witness_ClockedRunIsTheCommand_fault :
    smallMap.inv = true ∧ smallMap.drained = true ∧ smallMap.phase = .idle ∧
    Undisturbed [{ quiet with cmdValid := true, cmdWord := 0x0500000000#40 }, { quiet with memReqReady := true }] smallMap ∧
    faultOf (edges [{ quiet with cmdValid := true, cmdWord := 0x0500000000#40 }, { quiet with memReqReady := true }]
      smallMap) = some (.notWritable 0x0000#16) :=
  ⟨by decide, by decide, by decide, undisturbed_of_quiet _ _ (by decide), by decide⟩

/-- The first, second and fourth clause: a waiting edge, and one without a wait. -/
theorem witness_EveryCommandEnds :
    midRead.inv = true ∧ midRead.drained = true ∧ midRead.phase ≠ .idle ∧ midRead.edgesLeft ≠ 0 ∧ quiet.rst = false ∧
    waitsAt quiet midRead ∧ (nextOf (edge quiet midRead)).isSome = true ∧ ¬ waitsAt (promptPins midRead) midRead ∧
    (nextOf (edge (promptPins midRead) midRead)).map State.edgesLeft = some 8 ∧
    (nextOf (drive 9 midRead)).map State.acc = some 0x030C#16 := by decide

/-- The third clause, with UPDATE's edges after its word has been latched. -/
theorem witness_EveryCommandEnds_edges :
    (State.reset.setPhase (.latched 0x0200000041#40)).inv = true ∧
    (State.reset.setPhase (.latched 0x0200000041#40)).drained = true ∧
    (State.reset.setPhase (.latched 0x0200000041#40)).phase ≠ .idle ∧
    Undisturbed (List.replicate 9 quiet) (State.reset.setPhase (.latched 0x0200000041#40)) ∧
    (State.reset.setPhase (.latched 0x0200000041#40)).edgesLeft = 8 ∧
    movingEdges (List.replicate 9 quiet) (State.reset.setPhase (.latched 0x0200000041#40)) = 8 :=
  ⟨by decide, by decide, by decide, undisturbed_of_quiet _ _ (by decide), by decide, by decide⟩

/-- With an access abandoned by a reset in flight, a command without memory is still bounded. -/
theorem witness_EveryCommandEnds_leftOver :
    (leftOver.setPhase (.latched 0x0200000041#40)).inv = true ∧
    (leftOver.setPhase (.latched 0x0200000041#40)).edgesLeft ≠ 0 ∧
    (nextOf (edge quiet (leftOver.setPhase (.latched 0x0200000041#40)))).map State.edgesLeft = some 7 := by decide

theorem witness_ResetEdge :
    ({ quiet with rst := true } : Pins).rst = true ∧ ({ quiet with rst := true } : Pins).memRspValid = false ∧
    ({ quiet with rst := true, memRspValid := true } : Pins).memRspValid = true := by decide

theorem witness_EngineWaitsInThreePlaces :
    (nextOf (edge quiet State.reset)).isSome = true ∧
    (nextOf (edge quiet (State.reset.setPhase (.writeRequest 0xFFFF#16 .high)))).isSome = true ∧
    (nextOf (edge quiet midRead)).isSome = true ∧
    (nextOf (edge quiet (waitingWith { status := .ok, data := 0#16 } []))).isSome = true := by decide

/-- Both offers, and each with an access abandoned by a reset in flight. -/
theorem witness_OffersAreHeld :
    quiet.rst = false ∧ quiet.memReqReady = false ∧ quiet.rspReady = false ∧
    (State.reset.setPhase (.writeRequest 0xFFFF#16 .low)).bus = none ∧
    (State.reset.setPhase (.writeRequest 0xFFFF#16 .low)).offered.isSome = true ∧
    (waitingWith { status := .ok, data := 0#16 } []).offeredResponse.isSome = true ∧
    (leftOver.setPhase (.writeRequest 0xFFFF#16 .low)).offered.isSome = true ∧
    (leftOver.setPhase (.responding { status := .ok, data := 0#16 })).offeredResponse.isSome = true ∧
    (leftOver.setPhase (.responding { status := .ok, data := 0#16 })).bus.isSome = true := by decide

theorem witness_OneAccessOutstanding :
    (nextOf (edge { quiet with memReqReady := true } ((withAcc 0xBCDD#16).setPhase (.writeRequest 0x0200#16 .low)))).map
      State.accesses = some [.write 0x0200#16 0xDD#8] := by decide

theorem witness_LowByteLandsFirst :
    ({ withAcc 0xBCDD#16 with phase := .writeWait 0xFFFF#16 .low, bus := some (.write 0xFFFF#16 0xDD#8) } : State).inv
      = true ∧
    (nextOf (edge { quiet with memRspValid := true }
      { withAcc 0xBCDD#16 with phase := .writeWait 0xFFFF#16 .low, bus := some (.write 0xFFFF#16 0xDD#8) })).map
      (fun t => (t.phase, t.mem)) = some (.writeRequest 0xFFFF#16 .high, [(0xFFFF, 0xDD#8)]) ∧
    ((withAcc 0xBCDD#16).setPhase (.writeRequest 0xFFFF#16 .high)).inv = true ∧
    (nextOf (edge quiet ((withAcc 0xBCDD#16).setPhase (.writeRequest 0xFFFF#16 .high)))).isSome = true := by decide

theorem witness_BusyEngineAcceptsNoCommand : midRead.phase ≠ .idle := by decide

end Sys2Proof.Tests
end

section
/-! SUPPORT. Carrying a command to its end, phase by phase (spec/00_scope.md R7): what `finish` answers in each phase, and
that the engine's move out of a phase leaves that answer as it is. -/

namespace Sys2Proof.Machine

/-! ## What `finish` answers -/

section
variable {s : State} {buf : Buffer} {byte : Byte} {bit : Fin 8} {ptr : Addr}

theorem finish_of_latched {w : CmdWord} (hp : s.phase = .latched w) : finish s = runWord w s := by
  simp only [finish, hp]

theorem finish_of_updating (hp : s.phase = .updating byte bit) :
    finish s = .next (respondOk (s.setAcc (updateRest s.cfg.polynom s.acc byte bit))) := by
  simp only [finish, hp]

theorem finish_of_readRequest (hp : s.phase = .readRequest buf) :
    finish s = outcomeOf (finishBuffer buf.left buf.addr s) := by
  simp only [finish, hp]

theorem finish_of_readWait (hp : s.phase = .readWait buf) :
    finish s = outcomeOf (finishBuffer (buf.left - 1) (buf.addr + 1#16)
      (foldByte (s.mem.read buf.addr) (complete s))) := by
  simp only [finish, hp]

theorem finish_of_folding (hp : s.phase = .folding buf byte bit) :
    finish s = outcomeOf (finishBuffer (buf.left - 1) (buf.addr + 1#16)
      (s.setAcc (updateRest s.cfg.polynom s.acc byte bit))) := by
  simp only [finish, hp]

theorem finish_of_writeRequest_low (hp : s.phase = .writeRequest ptr .low) :
    finish s = outcomeOf (storeBoth ptr s) := by
  simp only [finish, hp]

theorem finish_of_writeRequest_high (hp : s.phase = .writeRequest ptr .high) :
    finish s = outcomeOf (storeHigh ptr s) := by
  simp only [finish, hp]

theorem finish_of_writeWait_low (hp : s.phase = .writeWait ptr .low) :
    finish s = outcomeOf (storeHigh ptr (complete s)) := by
  simp only [finish, hp]

theorem finish_of_writeWait_high (hp : s.phase = .writeWait ptr .high) :
    finish s = .next (respondOk (complete s)) := by
  simp only [finish, hp]

theorem finish_of_responding {r : Response} (hp : s.phase = .responding r) : finish s = .next s := by
  simp only [finish, hp]

/-- A command under way that is carried to its end has its response waiting. -/
theorem finish_responding {t : State} (hidle : s.phase ≠ .idle) (h : finish s = .next t) :
    ∃ r, t.phase = .responding r := by
  cases hp : s.phase with
  | idle => exact absurd hp hidle
  | latched w =>
    rw [finish_of_latched hp] at h
    exact (runWord_phase h).1
  | updating byte bit =>
    rw [finish_of_updating hp] at h
    cases h
    exact ⟨_, rfl⟩
  | readRequest buf =>
    rw [finish_of_readRequest hp, outcomeOf_next] at h
    obtain ⟨_, rfl⟩ := finishBuffer_ok h
    exact ⟨_, rfl⟩
  | readWait buf =>
    rw [finish_of_readWait hp, outcomeOf_next] at h
    obtain ⟨_, rfl⟩ := finishBuffer_ok h
    exact ⟨_, rfl⟩
  | folding buf byte bit =>
    rw [finish_of_folding hp, outcomeOf_next] at h
    obtain ⟨_, rfl⟩ := finishBuffer_ok h
    exact ⟨_, rfl⟩
  | writeRequest ptr o =>
    cases o with
    | low =>
      rw [finish_of_writeRequest_low hp, outcomeOf_next] at h
      obtain ⟨_, _, _, rfl⟩ := storeBoth_ok_iff.mp h
      exact ⟨_, rfl⟩
    | high =>
      rw [finish_of_writeRequest_high hp, outcomeOf_next] at h
      obtain ⟨_, _, rfl⟩ := storeHigh_ok_iff.mp h
      exact ⟨_, rfl⟩
  | writeWait ptr o =>
    cases o with
    | low =>
      rw [finish_of_writeWait_low hp, outcomeOf_next] at h
      obtain ⟨_, _, rfl⟩ := storeHigh_ok_iff.mp h
      exact ⟨_, rfl⟩
    | high =>
      rw [finish_of_writeWait_high hp] at h
      cases h
      exact ⟨_, rfl⟩
  | responding r =>
    rw [finish_of_responding hp] at h
    cases h
    exact ⟨r, hp⟩

/-! ## The engine's moves keep the end -/

/-- A bit step of UPDATE leaves the rest of the update. -/
theorem finish_updatingEdge (hp : s.phase = .updating byte bit) : finish (updatingEdge byte bit s) = finish s := by
  rw [finish_of_updating hp]
  unfold updatingEdge
  dsimp only
  split
  case isTrue hlast => rw [hlast, updateRest_last]; rfl
  case isFalse hnext => rw [updateRest_next _ _ _ _ hnext]; rfl

/-- One byte less is left at the next byte, which is one address on. -/
theorem Buffer.next_left_addr (hi : buf.index.toNat < buf.length.toNat) (hl : buf.isLast = false) :
    buf.next.left = buf.left - 1 ∧ buf.next.addr = buf.addr + 1#16 := by
  have hidx := (Buffer.next_index hi hl).1
  constructor
  · simp only [Buffer.left, hidx]
    simp only [Buffer.next]
    omega
  · rw [Buffer.addr, Buffer.addr, hidx, bufferAddr_add_one]
    rfl

/-- A bit step of CALCULATE leaves the rest of the byte's update and the bytes after it. -/
theorem finish_foldingEdge (hi : buf.index.toNat < buf.length.toNat) (hp : s.phase = .folding buf byte bit) :
    finish (foldingEdge buf byte bit s) = finish s := by
  rw [finish_of_folding hp]
  unfold foldingEdge
  dsimp only
  split
  case isTrue hbit =>
    rw [hbit, updateRest_last]
    cases hl : buf.isLast with
    | true =>
      have hleft : buf.left - 1 = 0 := by
        simp only [Buffer.isLast, decide_eq_true_eq] at hl
        simp only [Buffer.left]
        omega
      rw [hleft]
      rfl
    | false =>
      obtain ⟨hleft, haddr⟩ := Buffer.next_left_addr hi hl
      rw [← hleft, ← haddr, ← finishBuffer_setPhase _ _ _ (.readRequest buf.next)]
      rfl
  case isFalse hbit =>
    rw [updateRest_next _ _ _ _ hbit, ← finishBuffer_setPhase _ _ _ (.folding buf byte (bit + 1))]
    rfl

/-- A completion neither reads nor changes the phase. -/
theorem complete_setPhase (s : State) (ph : Phase) : complete (s.setPhase ph) = (complete s).setPhase ph := by
  unfold complete
  rw [setPhase_bus]
  split <;> rfl

/-- The transfer of a read, or its fault, is the first thing the loop does with the byte. -/
theorem finish_transfer_read (hi : buf.index.toNat < buf.length.toNat) (hp : s.phase = .readRequest buf) :
    andThen (outcomeOf (transfer (.read buf.addr) (.readWait buf) s)) finish = finish s := by
  have hleft : buf.left = buf.left - 1 + 1 := by
    simp only [Buffer.left]
    omega
  rw [finish_of_readRequest hp, hleft, finishBuffer_succ]
  unfold transfer
  cases request (.read buf.addr) s with
  | error f => rfl
  | ok t =>
    change finish (t.setPhase (.readWait buf)) = _
    rw [finish_of_readWait rfl, complete_setPhase]
    exact congrArg outcomeOf (finishBuffer_setPhase _ _ (foldByte (t.mem.read buf.addr) (complete t)) (.readWait buf))

/-- The completion of a read with the byte in memory leaves that byte's whole update. -/
theorem finish_read_completed (hp : s.phase = .readWait buf) :
    finish ((complete s).setPhase (.folding buf (s.mem.read buf.addr) 0)) = finish s := by
  rw [finish_of_readWait hp, finish_of_folding rfl, updateRest_zero]
  exact congrArg outcomeOf (finishBuffer_setPhase _ _ (foldByte (s.mem.read buf.addr) (complete s))
    (.folding buf (s.mem.read buf.addr) 0))

/-- The transfer of a write, or its fault, is the first thing RESULT_ARRAY does with the byte. -/
theorem finish_transfer_write {o : OutByte} (hp : s.phase = .writeRequest ptr o) :
    andThen (outcomeOf (transfer (.write (outAddr ptr o) (outValue s.acc o)) (.writeWait ptr o) s)) finish
      = finish s := by
  cases o with
  | low =>
    rw [finish_of_writeRequest_low hp]
    unfold transfer storeBoth memWrite
    cases request (.write (outAddr ptr .low) (outValue s.acc .low)) s with
    | error f => rfl
    | ok t =>
      change finish (t.setPhase (.writeWait ptr .low)) = _
      rw [finish_of_writeWait_low rfl, complete_setPhase, storeHigh_setPhase]
  | high =>
    rw [finish_of_writeRequest_high hp]
    unfold transfer storeHigh memWrite
    cases request (.write (outAddr ptr .high) (outValue s.acc .high)) s with
    | error f => rfl
    | ok t =>
      change finish (t.setPhase (.writeWait ptr .high)) = _
      rw [finish_of_writeWait_high rfl, complete_setPhase]
      rfl

/-- The completion of a write leaves the write after it, or the response. -/
theorem finish_writtenEdge {o : OutByte} (hp : s.phase = .writeWait ptr o) :
    finish (writtenEdge ptr o (complete s)) = finish s := by
  cases o with
  | low =>
    rw [finish_of_writeWait_low hp]
    exact congrArg outcomeOf (storeHigh_setPhase ptr (complete s) (.writeRequest ptr .high))
  | high =>
    rw [finish_of_writeWait_high hp]
    rfl

/-- The phase a word is accepted into holds the whole of the word. -/
theorem finish_acceptWord (w : CmdWord) (s : State) : finish (s.setPhase (acceptWord w)) = runWord w s := by
  unfold acceptWord
  split
  case h_1 ptr hd =>
    rw [finish_of_writeRequest_low rfl, storeBoth_setPhase]
    simp only [runWord, hd, exec, execResultArray]
  case h_2 => rw [finish_of_latched rfl, runWord_setPhase]

end

/-! ## The edge -/

/-- An edge without reset, with the memory's side and the engine's side apart. -/
theorem edge_of_no_reset {p : Pins} (s : State) (hr : p.rst = false) :
    edge p s = outcomeOf (engineEdge p (memoryEdge p s)) := by
  simp [edge, hr]

/-- With a free port an edge without reset is the engine's side alone. -/
theorem edge_of_free {p : Pins} {s : State} (hr : p.rst = false) (hb : s.bus = none) :
    edge p s = outcomeOf (engineEdge p s) := by
  rw [edge_of_no_reset s hr, memoryEdge_of_free p hb]

/-- An edge without reset at which the engine waits for the memory and the memory does not answer changes nothing. -/
theorem edge_of_no_completion {p : Pins} {s : State} (hr : p.rst = false) (ha : s.awaited.isSome = true)
    (hv : p.memRspValid = false) : edge p s = .next s := by
  cases hp : s.phase <;> simp only [State.awaited, hp, Option.isSome_none, Bool.false_eq_true] at ha
  case readWait => simp [edge_of_no_reset s hr, memoryEdge, engineEdge, hp, hv, outcomeOf]
  case writeWait => simp [edge_of_no_reset s hr, memoryEdge, engineEdge, hp, hv, outcomeOf]

/-- The edge at which the memory completes the read that CALCULATE waits for. -/
theorem edge_of_read_completion {p : Pins} {s : State} {buf : Buffer} (hr : p.rst = false)
    (hp : s.phase = .readWait buf) (hv : p.memRspValid = true) :
    edge p s = .next ((complete s).setPhase (.folding buf p.memRspRdata 0)) := by
  have hphase : (complete s).phase = .readWait buf := (complete_frame s).2.2.1.trans hp
  simp [edge_of_no_reset s hr, memoryEdge, engineEdge, hphase, hv, outcomeOf]

/-- The edge at which the memory completes the write that RESULT_ARRAY waits for. -/
theorem edge_of_write_completion {p : Pins} {s : State} {ptr : Addr} {o : OutByte} (hr : p.rst = false)
    (hp : s.phase = .writeWait ptr o) (hv : p.memRspValid = true) :
    edge p s = .next (writtenEdge ptr o (complete s)) := by
  have hphase : (complete s).phase = .writeWait ptr o := (complete_frame s).2.2.1.trans hp
  simp [edge_of_no_reset s hr, memoryEdge, engineEdge, hphase, hv, outcomeOf]

/-- Where no completion is awaited, the engine's side of an edge that leaves the response waiting keeps the command's end. -/
theorem engineEdge_keeps_end {p : Pins} {s : State} (hwf : s.phase.wf = true) (hidle : s.phase ≠ .idle)
    (ha : s.awaited = none) (hrsp : p.rspReady = false) :
    andThen (outcomeOf (engineEdge p s)) finish = finish s := by
  unfold engineEdge
  cases hp : s.phase with
  | idle => exact absurd hp hidle
  | latched w => exact (finish_latched s).trans (finish_of_latched hp).symm
  | updating byte bit => exact finish_updatingEdge hp
  | readRequest buf =>
    have hi : buf.index.toNat < buf.length.toNat := by simpa [Phase.wf, hp] using hwf
    dsimp only
    split
    · exact finish_transfer_read hi hp
    · rfl
  | readWait buf => simp [State.awaited, hp] at ha
  | folding buf byte bit =>
    have hi : buf.index.toNat < buf.length.toNat := by simpa [Phase.wf, hp] using hwf
    exact finish_foldingEdge hi hp
  | writeRequest ptr o =>
    dsimp only
    split
    · exact finish_transfer_write hp
    · rfl
  | writeWait ptr o => simp [State.awaited, hp] at ha
  | responding r =>
    simp only [hrsp]
    rfl

/-- An edge without reset that leaves the response waiting keeps the command's end. -/
theorem edge_keeps_end {p : Pins} {s : State} (hinv : s.inv = true) (hd : s.drained = true) (hidle : s.phase ≠ .idle)
    (hr : p.rst = false) (hrsp : p.rspReady = false) (hf : p.faithful s) :
    andThen (edge p s) finish = finish s := by
  obtain ⟨_, hwf, hbus, _⟩ := (inv_iff s).mp hinv
  cases ha : s.awaited with
  | none =>
    rw [edge_of_free hr (bus_none_of_drained hd ha)]
    exact engineEdge_keeps_end hwf hidle ha hrsp
  | some a =>
    cases hv : p.memRspValid with
    | false =>
      rw [edge_of_no_completion hr (by simp [ha]) hv]
      rfl
    | true =>
      cases hp : s.phase <;> simp only [State.awaited, hp, reduceCtorEq] at ha
      case readWait buf =>
        cases ha
        have hb : s.bus = some (.read buf.addr) := hbus _ (by simp only [State.awaited, hp])
        rw [edge_of_read_completion hr hp hv, hf _ hv hb]
        exact finish_read_completed hp
      case writeWait ptr o =>
        rw [edge_of_write_completion hr hp hv]
        exact finish_writtenEdge hp

/-- Settles O52, by the phase of the command and whether the memory completes an awaited access at the edge. -/
theorem edgeKeepsTheCommandsEnd : Obligations.EdgeKeepsTheCommandsEnd := by
  unfold Obligations.EdgeKeepsTheCommandsEnd
  intro p s hinv hd hidle hr hrsp hf
  exact edge_keeps_end hinv hd hidle hr hrsp hf

end Sys2Proof.Machine
end

section
/-! SUPPORT. A sequence of clock edges (spec/00_scope.md R7): an edge without reset keeps the invariant and the drained port,
so undisturbed edges keep the end of the command that the first of them accepts. -/

namespace Sys2Proof.Machine

/-! ## One edge keeps what the next one needs -/

/-- An engine that awaits an access waits exactly for its completion. -/
theorem waitsAt_of_awaited {p : Pins} {s : State} {a : Access} (ha : s.awaited = some a) :
    waitsAt p s ↔ p.memRspValid = false := by
  cases hp : s.phase <;> simp only [State.awaited, hp, reduceCtorEq] at ha
  case readWait => simp [waitsAt, State.offered, State.awaited, State.offeredResponse, hp]
  case writeWait => simp [waitsAt, State.offered, State.awaited, State.offeredResponse, hp]

/-- An access in flight after the memory's side of an edge was in flight before it. -/
theorem bus_of_memoryEdge {p : Pins} {s : State} {a : Access} (h : (memoryEdge p s).bus = some a) :
    s.bus = some a := by
  obtain ⟨_, _, _, _, _, _, hbus⟩ := memoryEdge_frame p s
  rw [hbus] at h
  split at h
  · cases h
  · exact h

/-- Without a reset, an edge at which the engine does not wait, with no access abandoned, begins for the engine with a
free port. -/
theorem memoryEdge_bus_of_moving {p : Pins} {s : State} (hd : s.drained = true) (hw : ¬ waitsAt p s) :
    (memoryEdge p s).bus = none := by
  obtain ⟨_, _, _, _, _, _, hbus⟩ := memoryEdge_frame p s
  cases ha : s.awaited with
  | none => rw [hbus, bus_none_of_drained hd ha, ite_self]
  | some a =>
    rw [waitsAt_of_awaited ha, Bool.not_eq_false] at hw
    rw [hbus, hw]
    rfl

/-- With no access abandoned, an awaited access stays in flight where the engine waits for it. -/
theorem memoryEdge_bus_of_waiting {p : Pins} {s : State} {a : Access} (ha : s.awaited = some a)
    (hw : waitsAt p s) : (memoryEdge p s).bus = s.bus := by
  obtain ⟨_, _, _, _, _, _, hbus⟩ := memoryEdge_frame p s
  rw [hbus, (waitsAt_of_awaited ha).mp hw]
  rfl

/-- An edge without reset keeps the invariant. -/
theorem edge_keeps_inv {p : Pins} {s t : State} (hinv : s.inv = true) (hr : p.rst = false) (h : edge p s = .next t) :
    t.inv = true := by
  obtain ⟨hm, hwf, hbus, hback⟩ := (inv_iff s).mp hinv
  obtain ⟨hcfg, _, hphase, _⟩ := memoryEdge_frame p s
  have hback' : ∀ a, (memoryEdge p s).bus = some a → a.backedBy (memoryEdge p s).cfg = true := fun a ha => by
    rw [hcfg]
    exact hback a (bus_of_memoryEdge ha)
  have hm' := memoryEdge_mem_wf p hm
  have hwf' : (memoryEdge p s).phase.wf = true := by rw [hphase, hwf]
  rw [inv_iff]
  obtain ⟨hw, rfl⟩ | ⟨_, a, ph, _, _, _, hb, rfl, hph, haw, _⟩ | ⟨_, hi⟩ := engineEdge_ok ((edge_next hr).mp h)
  · rw [waitsAt_memoryEdge] at hw
    refine ⟨hm', hwf', fun a ha => ?_, hback'⟩
    rw [(offered_memoryEdge p s).2.1] at ha
    rw [memoryEdge_bus_of_waiting ha hw, hbus a ha]
  · refine ⟨hm', hph hwf', fun b hb' => ?_, fun b hb' => ?_⟩
    · rw [← hb', haw]
    · cases hb'
      exact hb
  · rw [hi.mem, hi.bus, hi.cfg, hi.awaited]
    exact ⟨hm', hi.wf hwf', by simp, hback'⟩

/-- An edge without reset abandons no access. -/
theorem edge_keeps_drained {p : Pins} {s t : State} (hd : s.drained = true) (hr : p.rst = false)
    (h : edge p s = .next t) : t.drained = true := by
  obtain ⟨hw, rfl⟩ | ⟨_, a, ph, _, _, _, _, rfl, _, haw, _⟩ | ⟨hw, hi⟩ := engineEdge_ok ((edge_next hr).mp h)
  · unfold State.drained
    rw [(offered_memoryEdge p s).2.1]
    cases ha : s.awaited with
    | none =>
      have hb := bus_none_of_drained hd ha
      rw [memoryEdge_of_free p hb, hb]
      rfl
    | some a => rfl
  · unfold State.drained
    rw [haw]
    rfl
  · rw [waitsAt_memoryEdge] at hw
    unfold State.drained
    rw [hi.bus, memoryEdge_bus_of_moving hd hw, hi.awaited]
    rfl

/-- An undisturbed edge does not make a busy engine idle: its end, kept by the edge, has a response waiting. -/
theorem edge_keeps_busy {p : Pins} {s t : State} (hidle : s.phase ≠ .idle)
    (hend : andThen (edge p s) finish = finish s) (h : edge p s = .next t) : t.phase ≠ .idle := by
  intro ht
  have hs : finish s = .next t := by
    rw [← hend, h]
    simp only [andThen_next, finish, ht]
  obtain ⟨r, hresp⟩ := finish_responding hidle hs
  rw [ht] at hresp
  cases hresp

/-! ## A sequence of edges -/

theorem edges_cons (p : Pins) (ps : List Pins) (s : State) : edges (p :: ps) s = andThen (edge p s) (edges ps) := rfl

/-- Outcomes chained are chained from either end. -/
theorem andThen_assoc (o : Host.Outcome State Fault Refusal) (f g : State → Host.Outcome State Fault Refusal) :
    andThen (andThen o f) g = andThen o fun s => andThen (f s) g := by
  cases o <;> rfl

/-- Undisturbed edges keep the end of the command under way. -/
theorem edges_keep_end {ps : List Pins} {s : State} (hinv : s.inv = true) (hd : s.drained = true)
    (hidle : s.phase ≠ .idle) (hu : Undisturbed ps s) : andThen (edges ps s) finish = finish s := by
  induction ps generalizing s with
  | nil => rfl
  | cons p ps ih =>
    obtain ⟨hr, hrsp, hf, hnext⟩ := hu
    have hend := edge_keeps_end hinv hd hidle hr hrsp hf
    rw [edges_cons, andThen_assoc]
    cases he : edge p s with
    | next t =>
      rw [andThen_next,
        ih (edge_keeps_inv hinv hr he) (edge_keeps_drained hd hr he) (edge_keeps_busy hidle hend he) (hnext t he),
        ← hend, he, andThen_next]
    | fault f => rw [← hend, he]; rfl
    | refused r => rw [← hend, he]; rfl

/-- The edge at which an idle engine with a free port takes a word. -/
theorem edge_accepts {p : Pins} {s : State} (hd : s.drained = true) (hp : s.phase = .idle) (hr : p.rst = false)
    (hv : p.cmdValid = true) : edge p s = .next (s.setPhase (acceptWord p.cmdWord)) := by
  rw [edge_of_free hr (bus_none_of_drained hd (by simp [State.awaited, hp]))]
  simp [engineEdge, hp, hv, outcomeOf]

/-- An accepted word makes the engine busy. -/
theorem acceptWord_ne_idle (w : CmdWord) : acceptWord w ≠ .idle := by
  unfold acceptWord
  split <;> simp

/-- Undisturbed edges that begin with the transfer of a word keep what the word does. -/
theorem edges_keep_word {p : Pins} {ps : List Pins} {s : State} (hinv : s.inv = true) (hd : s.drained = true)
    (hp : s.phase = .idle) (hv : p.cmdValid = true) (hu : Undisturbed (p :: ps) s) :
    andThen (edges (p :: ps) s) finish = runWord p.cmdWord s := by
  obtain ⟨hr, _, _, hnext⟩ := hu
  have he := edge_accepts hd hp hr hv
  rw [edges_cons, he, andThen_next,
    edges_keep_end (edge_keeps_inv hinv hr he) (edge_keeps_drained hd hr he) (acceptWord_ne_idle _) (hnext _ he),
    finish_acceptWord]

/-- Settles O53: the edges keep what the word does, and a waiting response is its own end. -/
theorem clockedRunIsTheCommand : Obligations.ClockedRunIsTheCommand := by
  unfold Obligations.ClockedRunIsTheCommand
  intro p ps s hinv hd hp hv hu
  rw [← edges_keep_word hinv hd hp hv hu]
  refine ⟨fun t r he ht => ?_, fun f he => ?_⟩
  · rw [he, andThen_next, finish_of_responding ht]
  · rw [he, andThen_fault]

end Sys2Proof.Machine
end

section
/-! SUPPORT. A list of words sent by the host (spec/70_reset_and_hazards.md R123, R128): two steps a word. -/

namespace Sys2Proof.Machine

/-- `k` steps of the machine behind the host's interface, as an outcome of the model's own types. -/
def runSteps (k : Nat) (s : State) : Host.Outcome State Fault Refusal := Sys2Proof.core.run k s

/-- The first step of a run. -/
theorem runSteps_succ (k : Nat) (s : State) : runSteps (k + 1) s = andThen (step s) (runSteps k) := by
  simp only [runSteps, Host.Core.run, Host.Check.core_step]
  cases step s <;> rfl

/-- An idle engine that is sent a word runs it whole. -/
theorem step_send {s : State} (w : CmdWord) (rest : List Move) (hp : s.phase = .idle) :
    step (s.setPlan (.send w :: rest)) = andThen (runWord w s) fun t => .next (t.setPlan rest) := by
  rw [← runWord_setPlan]
  simp only [step, advance, idleMove, setPlan_phase, setPlan_plan, hp]
  rfl

/-- A waiting response that the host takes leaves the engine idle. -/
theorem step_take {s : State} {r : Response} (rest : List Move) (hp : s.phase = .responding r) :
    step (s.setPlan (.take :: rest)) = .next ((makeIdle s).setPlan rest) := by
  simp only [step, advance, respondingMove, makeIdle, setPlan_phase, setPlan_plan, hp]
  rfl

theorem makeIdle_phase (s : State) : (makeIdle s).phase = .idle := by
  unfold makeIdle
  split <;> rfl

/-- Making the engine idle neither reads nor changes the plan. -/
theorem makeIdle_setPlan (s : State) (pl : List Move) : makeIdle (s.setPlan pl) = (makeIdle s).setPlan pl := by
  unfold makeIdle
  rw [setPlan_phase]
  split <;> rfl

theorem andThen_refused (r : Refusal) (f : State → Host.Outcome State Fault Refusal) :
    andThen (.refused r) f = .refused r := rfl

/-- The word executed whole and its response taken. -/
def runAndTake (w : CmdWord) (s : State) : Host.Outcome State Fault Refusal :=
  andThen (runWord w s) fun t => .next (makeIdle t)

/-- The plan is neither read nor changed by a word and the taking of its response. -/
theorem runAndTake_setPlan (w : CmdWord) (s : State) (pl : List Move) :
    runAndTake w (s.setPlan pl) = andThen (runAndTake w s) fun t => .next (t.setPlan pl) := by
  unfold runAndTake
  rw [runWord_setPlan]
  cases runWord w s with
  | next t => exact congrArg _ (makeIdle_setPlan t pl)
  | fault f => rfl
  | refused r => rfl

theorem runAndTake_phase {w : CmdWord} {s t : State} (h : runAndTake w s = .next t) : t.phase = .idle := by
  unfold runAndTake at h
  cases hw : runWord w s with
  | next u =>
    rw [hw] at h
    cases h
    exact makeIdle_phase u
  | fault f => rw [hw] at h; cases h
  | refused r => rw [hw] at h; cases h

/-- Two steps send a word and take its response. -/
theorem runSteps_send_take {s : State} (k : Nat) (w : CmdWord) (rest : List Move) (hp : s.phase = .idle) :
    runSteps (k + 2) (s.setPlan (.send w :: .take :: rest)) =
      andThen (runAndTake w s) fun t => runSteps k (t.setPlan rest) := by
  rw [runSteps_succ, step_send w _ hp, runAndTake]
  cases hw : runWord w s with
  | next t =>
    obtain ⟨⟨r, hr⟩, _⟩ := runWord_phase hw
    simp only [andThen_next, runSteps_succ, step_take rest hr]
  | fault f => rfl
  | refused r => rfl

/-- A chain that has stopped stays stopped: the words after a fault are not executed. -/
theorem foldl_andThen_of_stopped {o : Host.Outcome State Fault Refusal} (ho : ∀ f, andThen o f = o)
    (ws : List CmdWord) : ws.foldl (fun o w => andThen o (runAndTake w)) o = o := by
  induction ws with
  | nil => rfl
  | cons w ws ih => rw [List.foldl_cons, ho, ih]

/-- The words sent and their responses taken, from an idle engine. -/
theorem runSteps_words (ws : List CmdWord) (rest : List Move) {s : State} (hp : s.phase = .idle) :
    runSteps (2 * ws.length) (s.setPlan ((ws.flatMap fun w => [.send w, .take]) ++ rest)) =
      ws.foldl (fun o w => andThen o (runAndTake w)) (.next (s.setPlan rest)) := by
  induction ws generalizing s with
  | nil => rfl
  | cons w ws ih =>
    simp only [List.length_cons, Nat.mul_succ, List.flatMap_cons, List.cons_append, List.nil_append]
    rw [runSteps_send_take _ _ _ hp, List.foldl_cons, andThen_next, runAndTake_setPlan]
    cases hw : runAndTake w s with
    | next t => rw [andThen_next, andThen_next, ih (runAndTake_phase hw)]
    | fault f => rw [andThen_fault, andThen_fault, foldl_andThen_of_stopped fun _ => rfl]
    | refused r => rw [andThen_refused, andThen_refused, foldl_andThen_of_stopped fun _ => rfl]

/-- Settles O43, by induction on the words. -/
theorem commandsRunInOrder : Obligations.CommandsRunInOrder := by
  unfold Obligations.CommandsRunInOrder
  intro ws rest s hp hplan
  have hs : s = s.setPlan ((ws.flatMap fun w => [.send w, .take]) ++ rest) := by
    rw [← hplan]
    rfl
  rw [hs]
  exact runSteps_words ws rest hp

end Sys2Proof.Machine
end

section
/-! SUPPORT. What a command does in closed form (spec/10_state.md R10, R15, spec/20_memory.md R26): when each command ends
in a next state, and in which. -/

namespace Sys2Proof.Machine

/-! ## When each command ends, and in which state -/

/-- A fold that ends has read a readable buffer. -/
theorem foldBuffer_readable {n : Nat} {a : Addr} {s t : State} (h : foldBuffer n a s = .ok t) :
    BufferReadable s a n := by
  induction n generalizing a s with
  | zero => intro i hi; omega
  | succ n ih =>
    rw [foldBuffer_succ] at h
    cases hr : memRead a s with
    | error f => rw [hr] at h; cases h
    | ok r =>
      obtain ⟨_, hread, rfl⟩ := memRead_ok_iff.mp hr
      rw [hr] at h
      intro i hi
      cases i with
      | zero => rwa [bufferAddr_zero]
      | succ i =>
        rw [bufferAddr_succ]
        exact ih h i (by omega)

/-- The state in which CALCULATE ends (R80). -/
def afterCalculate (initial length : Byte) (ptr : Addr) (s : State) : State :=
  respondOk { s with
    acc := crcFn s.cfg.polynom (zextInitial initial) (bufferBytes s.mem ptr length.toNat)
    accesses := s.accesses ++ bufferReads ptr length.toNat }

/-- The state in which RESULT_ARRAY ends (R90). -/
def afterResultArray (ptr : Addr) (s : State) : State :=
  respondOk { s with
    mem := (s.mem.write ptr (lowByte s.acc)).write (bufferAddr ptr 1) (highByte s.acc)
    accesses := s.accesses ++ outWrites ptr s.acc }

/-- CALCULATE ends exactly when its buffer is readable and, if it reads at all, the port is free (R36, R115). -/
theorem exec_calculate_next_iff {initial length : Byte} {ptr : Addr} {s t : State} :
    exec (.calculate initial length ptr) s = .next t ↔
      (length.toNat ≠ 0 → s.bus = none) ∧ BufferReadable s ptr length.toNat ∧
        t = afterCalculate initial length ptr s := by
  simp only [exec, execCalculate, outcomeOf_next]
  constructor
  · intro h
    obtain ⟨hport, rfl⟩ := finishBuffer_ok h
    cases hf : foldBuffer length.toNat ptr (s.setAcc (zextInitial initial)) with
    | error f => rw [finishBuffer, hf] at h; cases h
    | ok u => exact ⟨hport.resolve_left, foldBuffer_readable (s := s.setAcc (zextInitial initial)) hf, rfl⟩
  · rintro ⟨hport, hread, rfl⟩
    rw [finishBuffer, foldBuffer_of_readable (s := s.setAcc (zextInitial initial)) hport hread]
    rfl

/-- RESULT_ARRAY ends exactly when both its bytes are writable and the port is free (R36, R115). -/
theorem exec_resultArray_next_iff {ptr : Addr} {s t : State} :
    exec (.resultArray ptr) s = .next t ↔ s.bus = none ∧ OutWritable s ptr ∧ t = afterResultArray ptr s := by
  simp only [exec, execResultArray, outcomeOf_next, storeBoth_ok_iff, OutWritable, and_assoc]
  rfl

/-! ## The frame of a command (R10, R26) -/

/-- Every command that ends leaves the constants, the port, the plan and the taken responses. -/
theorem exec_frame {i : Instr} {s t : State} (h : exec i s = .next t) :
    t.cfg = s.cfg ∧ t.bus = s.bus ∧ t.plan = s.plan ∧ t.responses = s.responses := by
  cases i with
  | seed value => cases h; exact ⟨rfl, rfl, rfl, rfl⟩
  | update byte => cases h; exact ⟨rfl, rfl, rfl, rfl⟩
  | calculate initial length ptr =>
    obtain ⟨_, _, rfl⟩ := exec_calculate_next_iff.mp h
    exact ⟨rfl, rfl, rfl, rfl⟩
  | result => cases h; exact ⟨rfl, rfl, rfl, rfl⟩
  | resultArray ptr =>
    obtain ⟨_, _, rfl⟩ := exec_resultArray_next_iff.mp h
    exact ⟨rfl, rfl, rfl, rfl⟩

/-- The two result accessors leave `ACC`. -/
theorem exec_acc_of_not_writesAcc {i : Instr} {s t : State} (h : exec i s = .next t) (hi : writesAcc i = false) :
    t.acc = s.acc := by
  cases i with
  | seed value => cases hi
  | update byte => cases hi
  | calculate initial length ptr => cases hi
  | result => cases h; rfl
  | resultArray ptr =>
    obtain ⟨_, _, rfl⟩ := exec_resultArray_next_iff.mp h
    rfl

/-- A command leaves every byte of memory that it does not store to. -/
theorem exec_read_of_not_storesTo {i : Instr} {s t : State} {a : Addr} (h : exec i s = .next t)
    (ha : ¬ storesTo i a) : t.mem.read a = s.mem.read a := by
  cases i with
  | seed value => cases h; rfl
  | update byte => cases h; rfl
  | calculate initial length ptr =>
    obtain ⟨_, _, rfl⟩ := exec_calculate_next_iff.mp h
    rfl
  | result => cases h; rfl
  | resultArray ptr =>
    obtain ⟨_, _, rfl⟩ := exec_resultArray_next_iff.mp h
    obtain ⟨hlow, hhigh⟩ := not_or.mp ha
    exact (Memory.read_write_other _ _ hhigh).trans (Memory.read_write_other _ _ hlow)

/-- Settles O30: the frame, `ACC` and memory, each by the command. -/
theorem commandFrame : Obligations.CommandFrame := by
  unfold Obligations.CommandFrame
  intro i s t h
  obtain ⟨hcfg, hbus, hplan, hresp⟩ := exec_frame h
  exact ⟨hcfg, hbus, hplan, hresp, exec_acc_of_not_writesAcc h, fun _ => exec_read_of_not_storesTo h⟩

/-! ## `INITIAL_VALUE` (R15) -/

/-- The same machine built with another `INITIAL_VALUE`. -/
def State.withInitialValue (s : State) (v : Word) : State := { s with cfg := { s.cfg with initialValue := v } }

/-- A command that ends does the same in the machine with another `INITIAL_VALUE`. -/
theorem exec_withInitialValue {i : Instr} {s t : State} (v : Word) (h : exec i s = .next t) :
    exec i (s.withInitialValue v) = .next (t.withInitialValue v) := by
  cases i with
  | seed value => cases h; rfl
  | update byte => cases h; rfl
  | calculate initial length ptr =>
    obtain ⟨hport, hread, rfl⟩ := exec_calculate_next_iff.mp h
    exact exec_calculate_next_iff.mpr ⟨hport, hread, rfl⟩
  | result => cases h; rfl
  | resultArray ptr =>
    obtain ⟨hport, hwrite, rfl⟩ := exec_resultArray_next_iff.mp h
    exact exec_resultArray_next_iff.mpr ⟨hport, hwrite, rfl⟩

theorem runWord_of_ok {w : CmdWord} {i : Instr} (hd : decode w = .ok i) (s : State) : runWord w s = exec i s := by
  simp only [runWord, hd]

theorem runWord_of_illegal {w : CmdWord} {e : Illegal} (hd : decode w = .error e) (s : State) :
    runWord w s = .next (raiseIllegal s) := by
  simp only [runWord, hd]

/-- A word that ends does the same in the machine with another `INITIAL_VALUE`. -/
theorem runWord_withInitialValue {w : CmdWord} {s t : State} (v : Word) (h : runWord w s = .next t) :
    runWord w (s.withInitialValue v) = .next (t.withInitialValue v) := by
  cases hd : decode w with
  | error e =>
    rw [runWord_of_illegal hd] at h ⊢
    cases h
    rfl
  | ok i =>
    rw [runWord_of_ok hd] at h ⊢
    exact exec_withInitialValue v h

/-- Settles O34, by the command the word decodes to. -/
theorem noCommandReadsInitialValue : Obligations.NoCommandReadsInitialValue := by
  unfold Obligations.NoCommandReadsInitialValue
  intro w s t v h
  obtain ⟨_, _, hcfg, _, _⟩ := runWord_phase h
  exact ⟨congrArg Config.initialValue hcfg, runWord_withInitialValue v h⟩

end Sys2Proof.Machine
end

section
/-! SUPPORT. What a step can do (spec/70_reset_and_hazards.md R115, R123, R124, R128), said once, and the constants
(spec/10_state.md R14, R15, R116). -/

namespace Sys2Proof.Machine

/-! ## Every way a step can go -/

/-- The next move, if any, cannot happen yet between commands (log 14): an idle engine has no response to be taken, and one
whose response waits accepts no word. -/
def State.moveHeld (s : State) : Prop :=
  s.plan = [] ∨ (s.phase = .idle ∧ ∃ rest, s.plan = .take :: rest) ∨
    (s.phase ≠ .idle ∧ ∃ w rest, s.plan = .send w :: rest)

/-- Every way a step from `s` can answer a next state, which is the index. -/
inductive StepCase (s : State) : State → Prop where
  /-- An idle engine runs the word the host sends (R123). -/
  | word {w : CmdWord} {rest : List Move} {t : State} (hp : s.phase = .idle) (hplan : s.plan = .send w :: rest)
      (hw : runWord w (s.setPlan rest) = .next t) : StepCase s t
  /-- The host takes the response that waits (R124). -/
  | taken {r : Response} {rest : List Move} (hp : s.phase = .responding r) (hplan : s.plan = .take :: rest) :
      StepCase s (takeResponse r (s.setPlan rest))
  /-- The host resets the engine, whatever it is doing (R114). -/
  | reset {rest : List Move} (hplan : s.plan = .reset :: rest) : StepCase s (applyReset (s.setPlan rest))
  /-- Between commands the host stores a byte (R40). -/
  | hostStored {a : Addr} {v : Byte} {rest : List Move} (hb : s.atBoundary = true)
      (hplan : s.plan = .store a v :: rest) : StepCase s ((s.setPlan rest).setMem (s.mem.write a v))
  /-- Between commands the memory completes an access left over by a reset (R115). -/
  | drained {rest : List Move} (hb : s.atBoundary = true) (hplan : s.plan = .drain :: rest) :
      StepCase s (complete (s.setPlan rest))
  /-- Between commands the next move cannot happen yet (log 14). -/
  | held (hb : s.atBoundary = true) (hheld : s.moveHeld) : StepCase s s
  /-- The engine carries the command under way to its end (R123). -/
  | finished {t : State} (hb : s.atBoundary = false) (hreset : ∀ rest, s.plan ≠ .reset :: rest)
      (hf : finish s = .next t) : StepCase s t

theorem atBoundary_of_idle {s : State} (hp : s.phase = .idle) : s.atBoundary = true := by
  simp only [State.atBoundary, hp]

theorem atBoundary_of_responding {s : State} {r : Response} (hp : s.phase = .responding r) :
    s.atBoundary = true := by
  simp only [State.atBoundary, hp]

theorem stepCase_of_idleMove {s t : State} (hp : s.phase = .idle) (h : idleMove s = .next t) : StepCase s t := by
  have hb := atBoundary_of_idle hp
  unfold idleMove at h
  split at h
  · next hplan => cases h; exact .held hb (.inl hplan)
  · next hplan => exact .word hp hplan h
  · next hplan => cases h; exact .held hb (.inr (.inl ⟨hp, _, hplan⟩))
  · next hplan => cases h; exact .reset hplan
  · next hplan => rw [hostStore_ok h]; exact .hostStored hb hplan
  · next hplan => cases h; exact .drained hb hplan

theorem stepCase_of_respondingMove {s t : State} {r : Response} (hp : s.phase = .responding r)
    (h : respondingMove r s = .next t) : StepCase s t := by
  have hb := atBoundary_of_responding hp
  unfold respondingMove at h
  split at h
  · next hplan => cases h; exact .held hb (.inl hplan)
  · next hplan => cases h; exact .held hb (.inr (.inr ⟨by simp [hp], _, _, hplan⟩))
  · next hplan => cases h; exact .taken hp hplan
  · next hplan => cases h; exact .reset hplan
  · next hplan => rw [hostStore_ok h]; exact .hostStored hb hplan
  · next hplan => cases h; exact .drained hb hplan

theorem stepCase_of_busyMove {s t : State} (hb : s.atBoundary = false) (h : busyMove s = .next t) : StepCase s t := by
  unfold busyMove at h
  split at h
  · next hplan => cases h; exact .reset hplan
  · next hplan => exact .finished hb hplan h

/-- A step that answers a next state goes one of these ways. -/
theorem step_cases {s t : State} (h : step s = .next t) : StepCase s t := by
  unfold step advance at h
  split at h
  · next hp => exact stepCase_of_idleMove hp h
  · next r hp => exact stepCase_of_respondingMove hp h
  · next hidle hresp =>
    have hb : s.atBoundary = false := by
      unfold State.atBoundary
      split
      · contradiction
      · next r hp => exact absurd hp (hresp r)
      · rfl
    exact stepCase_of_busyMove hb h

/-! ## The constants (R14, R15, R116) -/

theorem finishBuffer_cfg {n : Nat} {a : Addr} {s t : State} (h : finishBuffer n a s = .ok t) : t.cfg = s.cfg := by
  obtain ⟨_, rfl⟩ := finishBuffer_ok h
  rfl

theorem storeHigh_cfg {ptr : Addr} {s t : State} (h : storeHigh ptr s = .ok t) : t.cfg = s.cfg := by
  obtain ⟨_, _, rfl⟩ := storeHigh_ok_iff.mp h
  rfl

theorem storeBoth_cfg {ptr : Addr} {s t : State} (h : storeBoth ptr s = .ok t) : t.cfg = s.cfg := by
  obtain ⟨_, _, _, rfl⟩ := storeBoth_ok_iff.mp h
  rfl

theorem runWord_cfg {w : CmdWord} {s t : State} (h : runWord w s = .next t) : t.cfg = s.cfg := by
  obtain ⟨_, _, hcfg, _, _⟩ := runWord_phase h
  exact hcfg

theorem complete_cfg (s : State) : (complete s).cfg = s.cfg := (complete_frame s).1

/-- Carrying a command to its end leaves the constants, whatever memory holds. -/
theorem finish_cfg {s t : State} (h : finish s = .next t) : t.cfg = s.cfg := by
  unfold finish at h
  split at h
  · cases h; rfl
  · exact runWord_cfg h
  · cases h; rfl
  · exact finishBuffer_cfg (outcomeOf_next.mp h)
  · exact (finishBuffer_cfg (outcomeOf_next.mp h)).trans (complete_cfg s)
  · exact (finishBuffer_cfg (outcomeOf_next.mp h)).trans (setAcc_cfg s _)
  · exact storeBoth_cfg (outcomeOf_next.mp h)
  · exact storeHigh_cfg (outcomeOf_next.mp h)
  · exact (storeHigh_cfg (outcomeOf_next.mp h)).trans (complete_cfg s)
  · cases h; exact complete_cfg s
  · cases h; rfl

theorem step_cfg {s t : State} (h : step s = .next t) : t.cfg = s.cfg := by
  cases step_cases h with
  | word _ _ hw => exact (runWord_cfg hw).trans (setPlan_cfg s _)
  | taken => rfl
  | reset => rfl
  | hostStored => rfl
  | drained => exact complete_cfg _
  | held => rfl
  | finished _ _ hf => exact finish_cfg hf

theorem engineEdge_cfg {p : Pins} {s t : State} (h : engineEdge p s = .ok t) : t.cfg = s.cfg := by
  obtain ⟨_, rfl⟩ | ⟨_, _, _, _, _, _, _, rfl, _⟩ | ⟨_, hi⟩ := engineEdge_ok h
  · rfl
  · rfl
  · exact hi.cfg

theorem edge_cfg {p : Pins} {s t : State} (h : edge p s = .next t) : t.cfg = s.cfg := by
  have hmem : (memoryEdge p s).cfg = s.cfg := (memoryEdge_frame p s).1
  cases hr : p.rst with
  | false => exact (engineEdge_cfg ((edge_next hr).mp h)).trans hmem
  | true =>
    rw [edge, hr] at h
    cases h
    exact hmem

/-- Settles O47, by the ways a step can go and the two sides of an edge. -/
theorem constantsNeverChange : Obligations.ConstantsNeverChange := by
  unfold Obligations.ConstantsNeverChange
  exact ⟨fun _ _ => step_cfg, fun _ _ _ => edge_cfg⟩

end Sys2Proof.Machine
end

section
/-! SUPPORT. `ACC` and the stream it is the CRC of (spec/10_state.md R19 to R22, spec/90_conflicts.md C6): where they start,
how a word changes them, and that every step between commands keeps them together. -/

namespace Sys2Proof.Machine

/-! ## Reset -/

/-- Settles O42. -/
theorem stateAfterReset : Obligations.StateAfterReset := by
  unfold Obligations.StateAfterReset
  exact ⟨rfl, rfl, rfl, rfl⟩

/-- Settles O45: an empty memory is in canonical form, and no access is in flight. -/
theorem resetHasTheInvariant : Obligations.ResetHasTheInvariant := by
  unfold Obligations.ResetHasTheInvariant
  exact ⟨inv_boundary rfl (atBoundary_of_idle rfl) (fun _ hbus => by cases hbus), rfl⟩

/-- A reset starts a stream at `INITIAL_VALUE`. -/
theorem applyReset_accIs (s : State) : (applyReset s).accIs { seed := s.cfg.initialValue, fed := [] } :=
  (crcFn_nil _ _).symm

/-- Settles O49: the state after reset is itself a state that a reset has been applied to. -/
theorem resetStartsAStream : Obligations.ResetStartsAStream := by
  unfold Obligations.ResetStartsAStream
  exact ⟨rfl, applyReset_accIs State.reset, fun s => ⟨atBoundary_of_idle rfl, applyReset_accIs s⟩⟩

/-! ## The stream and a command word (R19) -/

/-- One byte more fed is one update more (R72). -/
theorem crcFn_append_singleton (p seed : Word) (bytes : List Byte) (b : Byte) :
    crcFn p seed (bytes ++ [b]) = updateFn p (crcFn p seed bytes) b := List.foldl_concat ..

/-- A stream is read in `ACC` and `POLYNOM` alone. -/
theorem accIs_congr {s t : State} {g : Stream} (hacc : t.acc = s.acc) (hcfg : t.cfg = s.cfg) :
    t.accIs g ↔ s.accIs g := by
  unfold State.accIs
  rw [hacc, hcfg]

/-- A word that ends leaves `ACC` the CRC of the stream after the word. -/
theorem runWord_accIs {w : CmdWord} {s t : State} {g : Stream} (hs : s.accIs g) (hw : runWord w s = .next t) :
    t.accIs (g.afterWord w s) := by
  unfold Stream.afterWord
  cases hd : decode w with
  | error e =>
    rw [runWord_of_illegal hd] at hw
    cases hw
    exact hs
  | ok i =>
    rw [runWord_of_ok hd] at hw
    cases i with
    | seed value =>
      cases hw
      exact (crcFn_nil _ _).symm
    | update byte =>
      cases hw
      have hfed := crcFn_append_singleton s.cfg.polynom g.seed g.fed byte
      rw [← hs] at hfed
      exact hfed.symm
    | calculate initial length ptr =>
      obtain ⟨_, _, rfl⟩ := exec_calculate_next_iff.mp hw
      rfl
    | result | resultArray ptr =>
      exact (accIs_congr (exec_acc_of_not_writesAcc hw rfl) (exec_frame hw).1).mpr hs

/-! ## The stream and a step -/

theorem Stream.after_of_reset {s : State} {rest : List Move} (g : Stream) (hplan : s.plan = .reset :: rest) :
    g.after s = { seed := s.cfg.initialValue, fed := [] } := by
  simp only [Stream.after, hplan]

theorem Stream.after_of_send {s : State} {w : CmdWord} {rest : List Move} (g : Stream) (hp : s.phase = .idle)
    (hplan : s.plan = .send w :: rest) : g.after s = g.afterWord w s := by
  simp only [Stream.after, hplan, hp, if_true]

/-- Only a reset, or a word sent to an idle engine, changes the stream. -/
theorem Stream.after_eq_self {s : State} (g : Stream) (hreset : ∀ rest, s.plan ≠ .reset :: rest)
    (hsend : s.phase = .idle → ∀ w rest, s.plan ≠ .send w :: rest) : g.after s = g := by
  unfold Stream.after
  split
  · next rest hplan => exact absurd hplan (hreset rest)
  · next w rest hplan => exact if_neg fun hp => hsend hp w rest hplan
  · rfl

/-- What a step between commands does that is neither a reset nor a word: it leaves `ACC`, the constants and the stream,
and stays between commands. -/
structure KeepsAcc (s t : State) : Prop where
  acc      : t.acc = s.acc
  cfg      : t.cfg = s.cfg
  boundary : t.atBoundary = true
  stream   : ∀ g : Stream, g.after s = g

theorem atBoundary_of_phase {s t : State} (h : t.phase = s.phase) : t.atBoundary = s.atBoundary := by
  unfold State.atBoundary
  rw [h]

theorem State.moveHeld.stream {s : State} (hheld : s.moveHeld) (g : Stream) : g.after s = g := by
  obtain hplan | ⟨_, _, hplan⟩ | ⟨hp, _, _, hplan⟩ := hheld
  · exact g.after_eq_self (by simp [hplan]) (by simp [hplan])
  · exact g.after_eq_self (by simp [hplan]) (by simp [hplan])
  · exact g.after_eq_self (by simp [hplan]) (fun hidle => absurd hidle hp)

/-- A step between commands is a word sent to an idle engine, a reset, or leaves `ACC` and the stream. -/
theorem step_boundary_cases {s t : State} (hb : s.atBoundary = true) (h : step s = .next t) :
    (∃ w rest, s.phase = .idle ∧ s.plan = .send w :: rest ∧ runWord w (s.setPlan rest) = .next t) ∨
    (∃ rest, s.plan = .reset :: rest ∧ t = applyReset (s.setPlan rest)) ∨
    KeepsAcc s t := by
  cases step_cases h with
  | word hp hplan hw => exact .inl ⟨_, _, hp, hplan, hw⟩
  | reset hplan => exact .inr (.inl ⟨_, hplan, rfl⟩)
  | taken hp hplan =>
    exact .inr (.inr ⟨rfl, rfl, atBoundary_of_idle rfl,
      fun g => g.after_eq_self (by simp [hplan]) (by simp [hplan])⟩)
  | hostStored _ hplan =>
    exact .inr (.inr ⟨rfl, rfl, hb, fun g => g.after_eq_self (by simp [hplan]) (by simp [hplan])⟩)
  | @drained rest _ hplan =>
    obtain ⟨hcfg, hacc, hphase, _⟩ := complete_frame (s.setPlan rest)
    exact .inr (.inr ⟨hacc, hcfg, (atBoundary_of_phase hphase).trans hb,
      fun g => g.after_eq_self (by simp [hplan]) (by simp [hplan])⟩)
  | held _ hheld => exact .inr (.inr ⟨rfl, rfl, hb, hheld.stream⟩)
  | finished hbusy => rw [hb] at hbusy; cases hbusy

/-- Settles O48, by the ways a step between commands can go and the command a word decodes to. -/
theorem accIsTheCrcOfTheStream : Obligations.AccIsTheCrcOfTheStream := by
  unfold Obligations.AccIsTheCrcOfTheStream
  intro s t g hb hs hstep
  obtain ⟨w, rest, hp, hplan, hw⟩ | ⟨rest, hplan, rfl⟩ | hkeeps := step_boundary_cases hb hstep
  · obtain ⟨⟨r, hresp⟩, _⟩ := runWord_phase hw
    rw [g.after_of_send hp hplan]
    exact ⟨atBoundary_of_responding hresp, runWord_accIs (s := s.setPlan rest) hs hw⟩
  · rw [g.after_of_reset hplan]
    exact ⟨atBoundary_of_idle rfl, applyReset_accIs (s.setPlan rest)⟩
  · rw [hkeeps.stream g]
    exact ⟨hkeeps.boundary, (accIs_congr hkeeps.acc hkeeps.cfg).mpr hs⟩

/-! ## Who may change `ACC` (R21, R130) -/

/-- A word that ends with another `ACC` is a SEED, an UPDATE or a CALCULATE. -/
theorem writesAcc_of_runWord {w : CmdWord} {s t : State} (hw : runWord w s = .next t) (hne : t.acc ≠ s.acc) :
    ∃ i, decode w = .ok i ∧ writesAcc i = true := by
  cases hd : decode w with
  | error e =>
    rw [runWord_of_illegal hd] at hw
    cases hw
    exact absurd rfl hne
  | ok i =>
    rw [runWord_of_ok hd] at hw
    cases hi : writesAcc i with
    | true => exact ⟨i, rfl, hi⟩
    | false => exact absurd (exec_acc_of_not_writesAcc hw hi) hne

/-- Settles O50, by the ways a step between commands can go. -/
theorem accChangesOnlyByCommandOrReset : Obligations.AccChangesOnlyByCommandOrReset := by
  unfold Obligations.AccChangesOnlyByCommandOrReset
  intro s t hb hstep hne
  obtain ⟨w, rest, hp, hplan, hw⟩ | ⟨rest, hplan, _⟩ | hkeeps := step_boundary_cases hb hstep
  · obtain ⟨i, hd, hi⟩ := writesAcc_of_runWord hw hne
    exact .inr ⟨w, rest, i, hp, hplan, hd, hi⟩
  · exact .inl ⟨rest, hplan⟩
  · exact absurd hkeeps.acc hne

end Sys2Proof.Machine
end

section
/-! SUPPORT. The data memory and its port (spec/20_memory.md R26 to R39): the invariant over a step and over an edge, where
a memory command faults, what RESULT_ARRAY stores, which accesses are made, and how an offer is held. -/

namespace Sys2Proof.Machine

/-! ## The invariant -/

/-- After a state with the invariant, one between commands has it too if its memory is in canonical form and its port
holds no other access. -/
theorem inv_of_boundary_of_bus {s t : State} (hinv : s.inv = true) (hm : t.mem.wf = true) (hb : t.atBoundary = true)
    (hcfg : t.cfg = s.cfg) (hbus : t.bus = s.bus ∨ t.bus = none) : t.inv = true := by
  obtain ⟨_, _, _, hback⟩ := (inv_iff s).mp hinv
  refine inv_boundary hm hb fun a ha => ?_
  rw [hcfg]
  obtain hsame | hnone := hbus
  · exact hback a (hsame ▸ ha)
  · rw [hnone] at ha
    cases ha

/-- A step ends between commands, keeps the canonical form of memory, and leaves no new access in flight. -/
theorem step_ends_at_boundary {s t : State} (hm : s.mem.wf = true) (h : step s = .next t) :
    t.mem.wf = true ∧ t.atBoundary = true ∧ (t.bus = s.bus ∨ t.bus = none) := by
  cases step_cases h with
  | @word w rest _ _ _ hw =>
    obtain ⟨⟨r, hresp⟩, _, _, hbus, _⟩ := runWord_phase hw
    exact ⟨runWord_mem_wf (s := s.setPlan rest) hm hw, atBoundary_of_responding hresp, .inl hbus⟩
  | taken => exact ⟨hm, atBoundary_of_idle rfl, .inl rfl⟩
  | reset => exact ⟨hm, atBoundary_of_idle rfl, .inl rfl⟩
  | hostStored hb => exact ⟨Memory.wf_write _ _ hm, hb, .inl rfl⟩
  | @drained rest hb =>
    have hphase : (complete (s.setPlan rest)).phase = s.phase := (complete_frame (s.setPlan rest)).2.2.1
    exact ⟨complete_mem_wf (s := s.setPlan rest) hm, (atBoundary_of_phase hphase).trans hb, .inr (complete_bus _)⟩
  | held hb => exact ⟨hm, hb, .inl rfl⟩
  | finished _ _ hf =>
    obtain ⟨hm', hb, _, hbus, _⟩ := finish_facts hm hf
    exact ⟨hm', hb, hbus⟩

/-- Settles O44: a step ends between commands, where the invariant is the form of memory and the backing of an access in
flight. -/
theorem stepKeepsTheInvariant : Obligations.StepKeepsTheInvariant := by
  unfold Obligations.StepKeepsTheInvariant
  intro s t hinv h
  obtain ⟨hm, _⟩ := (inv_iff s).mp hinv
  obtain ⟨hm', hb, hbus⟩ := step_ends_at_boundary hm h
  exact inv_of_boundary_of_bus hinv hm' hb (step_cfg h) hbus

/-- An edge with `rst` = 1 is the reset after the memory's side. -/
theorem edge_of_reset {p : Pins} (s : State) (hr : p.rst = true) : edge p s = .next (applyReset (memoryEdge p s)) := by
  simp only [edge, hr, if_true]

/-- After the memory's side of an edge the port holds what it held before, or nothing. -/
theorem memoryEdge_bus_same_or_none (p : Pins) (s : State) :
    (memoryEdge p s).bus = s.bus ∨ (memoryEdge p s).bus = none := by
  obtain ⟨_, _, _, _, _, _, hbus⟩ := memoryEdge_frame p s
  cases hv : p.memRspValid <;> simp [hbus, hv]

/-- An edge with `rst` = 1 keeps the invariant. -/
theorem reset_edge_keeps_inv {p : Pins} {s : State} (hinv : s.inv = true) :
    (applyReset (memoryEdge p s)).inv = true := by
  obtain ⟨hm, _⟩ := (inv_iff s).mp hinv
  obtain ⟨hcfg, _⟩ := memoryEdge_frame p s
  exact inv_of_boundary_of_bus hinv (memoryEdge_mem_wf p hm) (atBoundary_of_idle rfl) hcfg
    (memoryEdge_bus_same_or_none p s)

/-- Settles O46, by whether the edge is a reset. -/
theorem edgeKeepsTheInvariant : Obligations.EdgeKeepsTheInvariant := by
  unfold Obligations.EdgeKeepsTheInvariant
  intro p s t hinv h
  refine ⟨?_, fun hr hd => edge_keeps_drained hd hr h⟩
  cases hr : p.rst with
  | false => exact edge_keeps_inv hinv hr h
  | true =>
    rw [edge_of_reset s hr] at h
    cases h
    exact reset_edge_keeps_inv hinv

/-! ## Where a memory command faults (R36, 93 U1 and U2) -/

/-- A read of an address that is not readable faults there. -/
theorem memRead_of_not_readable {a : Addr} {s : State} (hb : s.bus = none) (ha : s.cfg.readable a = false) :
    memRead a s = .error (.notReadable a) := by
  rw [memRead, request_unbacked (a := .read a) hb ha]
  rfl

/-- A write to an address that is not writable faults there. -/
theorem memWrite_of_not_writable {a : Addr} (v : Byte) {s : State} (hb : s.bus = none)
    (ha : s.cfg.writable a = false) : memWrite a v s = .error (.notWritable a) := by
  rw [memWrite, request_unbacked (a := .write a v) hb ha]
  rfl

/-- A fold faults at the first byte of its buffer that is not readable. -/
theorem foldBuffer_of_not_readable {n k : Nat} {a : Addr} {s : State} (hb : s.bus = none) (hk : k < n)
    (hread : BufferReadable s a k) (hbad : s.cfg.readable (bufferAddr a k) = false) :
    foldBuffer n a s = .error (.notReadable (bufferAddr a k)) := by
  induction n generalizing k a s with
  | zero => omega
  | succ n ih =>
    rw [foldBuffer_succ]
    cases k with
    | zero =>
      rw [bufferAddr_zero] at hbad ⊢
      rw [memRead_of_not_readable hb hbad]
    | succ k =>
      have hfirst : s.cfg.readable a = true := by simpa using hread 0 (by omega)
      rw [memRead_ok_iff.mpr ⟨hb, hfirst, rfl⟩]
      rw [bufferAddr_succ] at hbad ⊢
      refine ih hb (by omega) (fun i hi => ?_) hbad
      rw [← bufferAddr_succ]
      exact hread (i + 1) (by omega)

/-- Settles O23: the fault of the fold is the fault of the command. -/
theorem calculateFaultsAtTheFirstUnreadableByte : Obligations.CalculateFaultsAtTheFirstUnreadableByte := by
  unfold Obligations.CalculateFaultsAtTheFirstUnreadableByte
  intro initial length ptr s k hb hk hread hbad
  have hfold := foldBuffer_of_not_readable (s := s.setAcc (zextInitial initial)) hb hk hread hbad
  rw [exec, execCalculate, finishBuffer, hfold]
  rfl

/-- RESULT_ARRAY faults at its low byte. -/
theorem storeBoth_of_low_not_writable {ptr : Addr} {s : State} (hb : s.bus = none)
    (hlow : s.cfg.writable ptr = false) : storeBoth ptr s = .error (.notWritable ptr) := by
  rw [storeBoth, memWrite_of_not_writable (a := outAddr ptr .low) _ hb hlow]
  rfl

/-- The second store of RESULT_ARRAY faults at its address. -/
theorem storeHigh_of_not_writable {ptr : Addr} {s : State} (hb : s.bus = none)
    (hhigh : s.cfg.writable (bufferAddr ptr 1) = false) :
    storeHigh ptr s = .error (.notWritable (bufferAddr ptr 1)) := by
  rw [storeHigh, memWrite_of_not_writable (a := outAddr ptr .high) _ hb hhigh]
  rfl

/-- RESULT_ARRAY, its low byte stored, faults at its high byte. -/
theorem storeBoth_of_high_not_writable {ptr : Addr} {s : State} (hb : s.bus = none)
    (hlow : s.cfg.writable ptr = true) (hhigh : s.cfg.writable (bufferAddr ptr 1) = false) :
    storeBoth ptr s = .error (.notWritable (bufferAddr ptr 1)) := by
  rw [storeBoth, memWrite_ok_iff (a := outAddr ptr .low) |>.mpr ⟨hb, hlow, rfl⟩]
  exact storeHigh_of_not_writable hb hhigh

/-- Settles O29, a clause for each of the two bytes. -/
theorem resultArrayFaultsAtTheFirstUnwritableByte : Obligations.ResultArrayFaultsAtTheFirstUnwritableByte := by
  unfold Obligations.ResultArrayFaultsAtTheFirstUnwritableByte
  intro ptr s hb
  refine ⟨fun hlow => ?_, fun hlow hhigh => ?_⟩
  · rw [exec, execResultArray, storeBoth_of_low_not_writable hb hlow]
    rfl
  · rw [exec, execResultArray, storeBoth_of_high_not_writable hb hlow hhigh]
    rfl

/-! ## What RESULT_ARRAY stores (R30, R37) -/

/-- The two output bytes stand at different addresses, also where the second wraps to 0. -/
theorem outAddr_low_ne_high (ptr : Addr) : outAddr ptr .low ≠ outAddr ptr .high := by
  simp only [outAddr, bufferAddr]
  bv_omega

/-- After RESULT_ARRAY each of its two addresses holds its byte of `ACC`. -/
theorem read_afterResultArray {s : State} (ptr : Addr) (o : OutByte) (hm : s.mem.wf = true) :
    (afterResultArray ptr s).mem.read (outAddr ptr o) = outValue s.acc o := by
  cases o with
  | low =>
    exact (Memory.read_write_other _ _ (outAddr_low_ne_high ptr)).trans (Memory.read_write_same ptr _ hm)
  | high => exact Memory.read_write_same _ _ (Memory.wf_write _ _ hm)

/-- Settles O27: the two bytes read back, and the frame of the command for every other byte. -/
theorem resultArrayIsLittleEndian : Obligations.ResultArrayIsLittleEndian := by
  unfold Obligations.ResultArrayIsLittleEndian
  intro ptr s hb hw hm
  have hexec : exec (.resultArray ptr) s = .next (afterResultArray ptr s) :=
    exec_resultArray_next_iff.mpr ⟨hb, hw, rfl⟩
  exact ⟨_, hexec, read_afterResultArray ptr .low hm, read_afterResultArray ptr .high hm,
    fun _ hlow hhigh => exec_read_of_not_storesTo hexec (not_or.mpr ⟨hlow, hhigh⟩)⟩

/-! ## Which accesses are made (R26, R34) -/

/-- The accesses of a command that begins with this `ACC`, in order (R34). -/
def accessesOf (acc : Word) : Instr → List Access
  | .calculate _ length ptr => bufferReads ptr length.toNat
  | .resultArray ptr        => outWrites ptr acc
  | .seed _ | .update _ | .result => []

/-- A command that ends has made its accesses and no other. -/
theorem exec_accesses {i : Instr} {s t : State} (h : exec i s = .next t) :
    t.accesses = s.accesses ++ accessesOf s.acc i := by
  cases i with
  | seed value => cases h; exact (List.append_nil _).symm
  | update byte => cases h; exact (List.append_nil _).symm
  | calculate initial length ptr =>
    obtain ⟨_, _, rfl⟩ := exec_calculate_next_iff.mp h
    rfl
  | result => cases h; exact (List.append_nil _).symm
  | resultArray ptr =>
    obtain ⟨_, _, rfl⟩ := exec_resultArray_next_iff.mp h
    rfl

/-- Settles O31, by the command the word decodes to. -/
theorem accessesOfEveryWord : Obligations.AccessesOfEveryWord := by
  unfold Obligations.AccessesOfEveryWord
  intro w s t h
  cases hd : decode w with
  | error e =>
    rw [runWord_of_illegal hd] at h
    cases h
    exact (List.append_nil _).symm
  | ok i =>
    rw [runWord_of_ok hd] at h
    rw [exec_accesses h]
    cases i <;> rfl

/-! ## The memory port at an edge (R28, R39, R124) -/

/-- Where the engine waits (R126), its side of an edge does nothing. -/
theorem engineEdge_of_waitsAt {p : Pins} {s : State} (hw : waitsAt p s) : engineEdge p s = .ok s := by
  obtain ⟨hp, hv⟩ | ⟨ho, hv⟩ | ⟨ha, hv⟩ | ⟨ho, hv⟩ := hw
  · simp [engineEdge, hp, hv]
  · cases hp : s.phase <;> simp only [State.offered, hp, Option.isSome_none, Bool.false_eq_true] at ho
    case readRequest => simp [engineEdge, hp, hv]
    case writeRequest => simp [engineEdge, hp, hv]
  · cases hp : s.phase <;> simp only [State.awaited, hp, Option.isSome_none, Bool.false_eq_true] at ha
    case readWait => simp [engineEdge, hp, hv]
    case writeWait => simp [engineEdge, hp, hv]
  · cases hp : s.phase <;> simp only [State.offeredResponse, hp, Option.isSome_none, Bool.false_eq_true] at ho
    case responding => simp [engineEdge, hp, hv]

/-- Where the engine waits, an edge without reset is the memory's side alone. -/
theorem edge_of_waitsAt {p : Pins} {s : State} (hr : p.rst = false) (hw : waitsAt p s) :
    edge p s = .next (memoryEdge p s) := by
  rw [edge_of_no_reset s hr, engineEdge_of_waitsAt ((waitsAt_memoryEdge p s).mpr hw)]
  rfl

/-- Settles O57: an offer that is not taken is a wait, and the memory's side touches only memory and port. -/
theorem offersAreHeld : Obligations.OffersAreHeld := by
  unfold Obligations.OffersAreHeld
  intro p s hr hheld
  have hw : waitsAt p s := hheld.elim (fun ho => .inr (.inl ho)) fun ho => .inr (.inr (.inr ho))
  obtain ⟨hcfg, hacc, hphase, haccesses, _, hresp, _⟩ := memoryEdge_frame p s
  obtain ⟨hoff, _, hoffr⟩ := offered_memoryEdge p s
  exact ⟨_, edge_of_waitsAt hr hw, hphase, hacc, hoff, hoffr, hresp, haccesses, hcfg, memoryEdge_of_free p⟩

/-- A port that is free after the memory's side of an edge was free before it or completed its access there. -/
theorem bus_of_memoryEdge_free {p : Pins} {s : State} (h : (memoryEdge p s).bus = none) :
    s.bus = none ∨ p.memRspValid = true := by
  obtain ⟨_, _, _, _, _, _, hbus⟩ := memoryEdge_frame p s
  rw [hbus] at h
  cases hv : p.memRspValid with
  | true => exact .inr rfl
  | false => exact .inl (by simpa [hv] using h)

/-- Settles O58: of the ways an edge can go, only a transfer changes the record of accesses. -/
theorem oneAccessOutstanding : Obligations.OneAccessOutstanding := by
  unfold Obligations.OneAccessOutstanding
  intro p s t h hne
  obtain ⟨_, _, _, haccesses, _⟩ := memoryEdge_frame p s
  cases hr : p.rst with
  | true =>
    rw [edge_of_reset s hr] at h
    cases h
    exact absurd haccesses hne
  | false =>
    obtain ⟨_, rfl⟩ | ⟨_, a, ph, hoff, hready, hfree, _, rfl, _⟩ | ⟨_, hi⟩ := engineEdge_ok ((edge_next hr).mp h)
    · exact absurd haccesses hne
    · rw [(offered_memoryEdge p s).1] at hoff
      exact ⟨rfl, hready, bus_of_memoryEdge_free hfree, a, hoff, by rw [haccesses], rfl⟩
    · exact absurd (hi.accesses.trans haccesses) hne

end Sys2Proof.Machine
end

section
/-! SUPPORT. The encoding (spec/30_encoding.md R46 to R57): a word lies in the format of at most one mnemonic and is then the
command that its operand fields hold. Decoder, encoder and opcode map are each tied to the formats, and so to each other. -/

namespace Sys2Proof

/-! ## The formats -/

/-- The word has the mnemonic's opcode, and its reserved bits are zero (R47 to R51, R53). -/
def Mnemonic.format (w : CmdWord) : Mnemonic → Prop
  | .SEED         => opField w = 0x01#8 ∧ upperField w = 0#16
  | .UPDATE       => opField w = 0x02#8 ∧ aboveByteField w = 0#24
  | .CALCULATE    => opField w = 0x03#8
  | .RESULT       => opField w = 0x04#8 ∧ operandField w = 0#32
  | .RESULT_ARRAY => opField w = 0x05#8 ∧ upperField w = 0#16

/-- The command of the mnemonic with the operands that the word's fields hold (R47 to R51). -/
def Mnemonic.command (w : CmdWord) : Mnemonic → Instr
  | .SEED         => .seed (lowerField w)
  | .UPDATE       => .update (byteField w)
  | .CALCULATE    => .calculate (initialField w) (lengthField w) (lowerField w)
  | .RESULT       => .result
  | .RESULT_ARRAY => .resultArray (lowerField w)

@[simp] theorem Mnemonic.mnemonic_command (m : Mnemonic) (w : CmdWord) : (m.command w).mnemonic = m := by
  cases m <;> rfl

/-! ## The decoder and the formats -/

/-- A word in the format of a mnemonic decodes to that command. -/
theorem decode_of_format {w : CmdWord} {m : Mnemonic} (h : m.format w) : decode w = .ok (m.command w) := by
  cases m with
  | SEED =>
    obtain ⟨hop, hres⟩ := h
    simp [decode, hop, hres, Mnemonic.command]
  | UPDATE =>
    obtain ⟨hop, hres⟩ := h
    simp [decode, hop, hres, Mnemonic.command]
  | CALCULATE =>
    have hop : opField w = 0x03#8 := h
    simp [decode, hop, Mnemonic.command]
  | RESULT =>
    obtain ⟨hop, hres⟩ := h
    simp [decode, hop, hres, Mnemonic.command]
  | RESULT_ARRAY =>
    obtain ⟨hop, hres⟩ := h
    simp [decode, hop, hres, Mnemonic.command]

/-- A word that decodes to a command is in its format, and holds its operands. -/
theorem format_of_decode {w : CmdWord} {i : Instr} (h : decode w = .ok i) :
    i.mnemonic.format w ∧ i.mnemonic.command w = i := by
  unfold decode at h
  split_ifs at h with hop hres hop hres hop hop hres hop hres
  · cases h; exact ⟨⟨hop, hres⟩, rfl⟩
  · cases h; exact ⟨⟨hop, hres⟩, rfl⟩
  · cases h; exact ⟨hop, rfl⟩
  · cases h; exact ⟨⟨hop, hres⟩, rfl⟩
  · cases h; exact ⟨⟨hop, hres⟩, rfl⟩

theorem decode_eq_ok_iff {w : CmdWord} {i : Instr} :
    decode w = .ok i ↔ i.mnemonic.format w ∧ i.mnemonic.command w = i := by
  constructor
  · exact format_of_decode
  · rintro ⟨hformat, hcommand⟩
    rw [decode_of_format hformat, hcommand]

/-- A word is in the format of a mnemonic exactly when it decodes to a command of that mnemonic. -/
theorem format_iff_decode {w : CmdWord} {m : Mnemonic} :
    m.format w ↔ ∃ i : Instr, decode w = .ok i ∧ i.mnemonic = m := by
  constructor
  · intro h
    exact ⟨m.command w, decode_of_format h, m.mnemonic_command w⟩
  · rintro ⟨i, hd, rfl⟩
    exact (format_of_decode hd).1

theorem legal_iff_decode {w : CmdWord} : legal w = true ↔ ∃ i : Instr, decode w = .ok i := by
  unfold legal
  cases decode w <;> simp [Except.isOk, Except.toBool]

theorem legal_iff_format {w : CmdWord} : legal w = true ↔ ∃ m : Mnemonic, m.format w := by
  rw [legal_iff_decode]
  constructor
  · rintro ⟨i, hd⟩
    exact ⟨i.mnemonic, (format_of_decode hd).1⟩
  · rintro ⟨m, h⟩
    exact ⟨m.command w, decode_of_format h⟩

/-! ## The encoder and the formats -/

/-- R59's table: the word of a command as a number. -/
theorem encode_eq_iff_toNat {i : Instr} {w : CmdWord} :
    encode i = w ↔ w.toNat = i.opcode * 2 ^ 32 + i.operandNat := by
  rw [← BitVec.toNat_inj, encode_toNat, eq_comm]

/-- A word encodes a command exactly when it is in the command's format and holds its operands: fields and operands are
the digits of one number. -/
theorem encode_eq_iff {i : Instr} {w : CmdWord} :
    encode i = w ↔ i.mnemonic.format w ∧ i.mnemonic.command w = i := by
  have := w.isLt
  rw [encode_eq_iff_toNat]
  cases i with
  | seed value =>
    have := value.isLt
    simp only [Instr.mnemonic, Mnemonic.format, Mnemonic.command, Instr.seed.injEq, ← BitVec.toNat_inj, opField_toNat,
      upperField_toNat, lowerField_toNat, BitVec.toNat_ofNat, Instr.opcode, Instr.operandNat]
    omega
  | update byte =>
    have := byte.isLt
    simp only [Instr.mnemonic, Mnemonic.format, Mnemonic.command, Instr.update.injEq, ← BitVec.toNat_inj, opField_toNat,
      aboveByteField_toNat, byteField_toNat, BitVec.toNat_ofNat, Instr.opcode, Instr.operandNat]
    omega
  | calculate initial length ptr =>
    have := initial.isLt
    have := length.isLt
    have := ptr.isLt
    simp only [Instr.mnemonic, Mnemonic.format, Mnemonic.command, Instr.calculate.injEq, ← BitVec.toNat_inj, opField_toNat,
      initialField_toNat, lengthField_toNat, lowerField_toNat, BitVec.toNat_ofNat, Instr.opcode, Instr.operandNat]
    omega
  | result =>
    simp only [Instr.mnemonic, Mnemonic.format, Mnemonic.command, ← BitVec.toNat_inj, opField_toNat,
      operandField_toNat, BitVec.toNat_ofNat, Instr.opcode, Instr.operandNat, and_true]
    omega
  | resultArray ptr =>
    have := ptr.isLt
    simp only [Instr.mnemonic, Mnemonic.format, Mnemonic.command, Instr.resultArray.injEq, ← BitVec.toNat_inj,
      opField_toNat, upperField_toNat, lowerField_toNat, BitVec.toNat_ofNat, Instr.opcode, Instr.operandNat]
    omega

/-! ## Decoder and encoder (R57) -/

theorem decode_eq_ok_iff_encode {w : CmdWord} {i : Instr} : decode w = .ok i ↔ encode i = w :=
  decode_eq_ok_iff.trans encode_eq_iff.symm

theorem decode_encode (i : Instr) : decode (encode i) = .ok i :=
  decode_eq_ok_iff_encode.mpr rfl

/-- Settles O1: decoder and encoder both meet the formats. -/
theorem decodeAndEncodeAreInverse : Obligations.DecodeAndEncodeAreInverse := by
  unfold Obligations.DecodeAndEncodeAreInverse
  exact ⟨decode_encode, fun _ _ => decode_eq_ok_iff_encode.mp⟩

/-- Settles O5, by running the decoder on the eleven words. -/
theorem sampleWordsDecode : Obligations.SampleWordsDecode := by
  unfold Obligations.SampleWordsDecode
  decide

/-! ## The opcode map (R53) -/

/-- How many low bits the mask of the mnemonic's row leaves free. -/
def Mnemonic.freeBits : Mnemonic → Nat
  | .SEED         => 16
  | .UPDATE       => 8
  | .CALCULATE    => 32
  | .RESULT       => 0
  | .RESULT_ARRAY => 16

theorem opcodeRow_mask (m : Mnemonic) : (opcodeRow m).mask = BitVec.allOnes 40 <<< m.freeBits := by
  cases m <;> decide

/-- A row compares the word's bits above the free ones. -/
theorem opcodeRow_matches_iff {w : CmdWord} {m : Mnemonic} :
    (opcodeRow m).matches w = true ↔ w.toNat / 2 ^ m.freeBits * 2 ^ m.freeBits = (opcodeRow m).pattern.toNat := by
  have hlt : w.toNat / 2 ^ m.freeBits * 2 ^ m.freeBits < 2 ^ 40 := (Nat.div_mul_le_self _ _).trans_lt w.isLt
  rw [OpcodeRow.matches, decide_eq_true_iff, opcodeRow_mask, ← BitVec.shiftLeft_ushiftRight, ← BitVec.toNat_inj,
    BitVec.toNat_shiftLeft, BitVec.toNat_ushiftRight, Nat.shiftLeft_eq, Nat.shiftRight_eq_div_pow,
    Nat.mod_eq_of_lt hlt]

/-- A row matches the words in the format of its mnemonic. -/
theorem opcodeRow_matches_iff_format {w : CmdWord} {m : Mnemonic} :
    (opcodeRow m).matches w = true ↔ m.format w := by
  have := w.isLt
  rw [opcodeRow_matches_iff]
  cases m <;>
    simp only [Mnemonic.format, Mnemonic.freeBits, opcodeRow, ← BitVec.toNat_inj, opField_toNat, upperField_toNat,
      aboveByteField_toNat, operandField_toNat, BitVec.toNat_ofNat] <;>
    omega

theorem format_unique {w : CmdWord} {m m' : Mnemonic} (h : m.format w) (h' : m'.format w) : m = m' := by
  have hcommand : m.command w = m'.command w :=
    Except.ok.inj ((decode_of_format h).symm.trans (decode_of_format h'))
  simpa using congrArg Instr.mnemonic hcommand

/-- Settles O2: a row is the format of its mnemonic, and the decoder answers one command. -/
theorem decodeFollowsTheOpcodeMap : Obligations.DecodeFollowsTheOpcodeMap := by
  unfold Obligations.DecodeFollowsTheOpcodeMap
  simp only [opcodeRow_matches_iff_format]
  exact ⟨fun _ _ => format_iff_decode, fun _ _ _ => format_unique⟩

/-! ## Counting the legal words (R55) -/

theorem legal_encode (i : Instr) : legal (encode i) = true :=
  legal_iff_decode.mpr ⟨i, decode_encode i⟩

/-- The word of a command, among the legal words. -/
def legalWord (i : Instr) : { w : CmdWord // legal w = true } := ⟨encode i, legal_encode i⟩

theorem legalWord_bijective : Function.Bijective legalWord := by
  constructor
  · intro i j h
    have henc : encode i = encode j := congrArg Subtype.val h
    rw [← decode_eq_ok_iff_encode, decode_encode] at henc
    exact Except.ok.inj henc.symm
  · rintro ⟨w, hw⟩
    obtain ⟨i, hd⟩ := legal_iff_decode.mp hw
    exact ⟨i, Subtype.ext (decode_eq_ok_iff_encode.mp hd)⟩

/-- A command is the choice of a mnemonic and of its operands. -/
def Instr.operandsEquiv : Instr ≃ Word ⊕ Byte ⊕ (Byte × Byte × Addr) ⊕ Unit ⊕ Addr where
  toFun
    | .seed value                   => .inl value
    | .update byte                  => .inr (.inl byte)
    | .calculate initial length ptr => .inr (.inr (.inl (initial, length, ptr)))
    | .result                       => .inr (.inr (.inr (.inl ())))
    | .resultArray ptr              => .inr (.inr (.inr (.inr ptr)))
  invFun
    | .inl value                               => .seed value
    | .inr (.inl byte)                         => .update byte
    | .inr (.inr (.inl (initial, length, ptr))) => .calculate initial length ptr
    | .inr (.inr (.inr (.inl ())))             => .result
    | .inr (.inr (.inr (.inr ptr)))            => .resultArray ptr
  left_inv i := by cases i <;> rfl
  right_inv x := by rcases x with _ | _ | _ | _ | _ <;> rfl

theorem card_bitVec (n : Nat) : Nat.card (BitVec n) = 2 ^ n :=
  Nat.card_eq_of_equiv_fin BitVec.equivFin.toEquiv

theorem card_instr : Nat.card Instr = 2 ^ 16 + 2 ^ 8 + 2 ^ 32 + 1 + 2 ^ 16 := by
  rw [Nat.card_congr Instr.operandsEquiv]
  simp only [Nat.card_sum, Nat.card_prod, card_bitVec, Nat.card_unique]
  norm_num

/-- Settles O4: the legal words are as many as the commands. -/
theorem legalWordCount : Obligations.LegalWordCount := by
  unfold Obligations.LegalWordCount
  rw [← Nat.card_eq_of_bijective legalWord legalWord_bijective, card_instr]

/-! ## Assembler lines (R59) -/

/-- A line has a word exactly when its operands fit, and then it is the word of its command. -/
theorem assemble_eq_ok_iff {l : Line} {w : CmdWord} :
    l.assemble = .ok w ↔ l.error = none ∧ w.toNat = l.command.opcode * 2 ^ 32 + l.command.operandNat := by
  rw [Line.assemble, ← encode_eq_iff_toNat]
  cases l.error <;> simp

/-- A check that finds no fault: its own condition fails, and so do the checks after it. -/
theorem ite_some_eq_none_iff {α : Type} {c : Prop} [Decidable c] {e : α} {o : Option α} :
    (if c then some e else o) = none ↔ ¬ c ∧ o = none := by
  by_cases hc : c <;> simp [hc]

/-- Settles O7: an operand that fits is the number its field holds. -/
theorem assemblerWords : Obligations.AssemblerWords := by
  unfold Obligations.AssemblerWords
  simp only [assemble_eq_ok_iff, Line.error, ite_some_eq_none_iff, Line.command, Instr.opcode, Instr.operandNat,
    BitVec.toNat_ofNat, and_true, true_and]
  refine ⟨fun value w => ?_, fun byte w => ?_, fun initial ptr length w => ?_, fun w => ?_, fun ptr w => ?_⟩ <;> omega

/-! ## Illegal words (R54) -/

theorem Mnemonic.exists_iff {P : Mnemonic → Prop} :
    (∃ m, P m) ↔ P .SEED ∨ P .UPDATE ∨ P .CALCULATE ∨ P .RESULT ∨ P .RESULT_ARRAY := by
  constructor
  · rintro ⟨m, h⟩
    cases m <;> simp [h]
  · rintro (h | h | h | h | h) <;> exact ⟨_, h⟩

/-- A word is illegal exactly when it is in no format: its opcode is reserved, or a reserved bit is not zero. -/
theorem illegal_iff {w : CmdWord} : legal w = false ↔
    opField w = 0x00#8 ∨ 0x06 ≤ (opField w).toNat ∨
    ((opField w = 0x01#8 ∨ opField w = 0x05#8) ∧ upperField w ≠ 0#16) ∨
    (opField w = 0x02#8 ∧ aboveByteField w ≠ 0#24) ∨
    (opField w = 0x04#8 ∧ operandField w ≠ 0#32) := by
  rw [← Bool.not_eq_true, legal_iff_format, Mnemonic.exists_iff]
  simp only [Mnemonic.format, ne_eq, ← BitVec.toNat_inj, BitVec.toNat_ofNat]
  omega

theorem legal_eq_false_iff_decode {w : CmdWord} : legal w = false ↔ ∃ e : Illegal, decode w = .error e := by
  unfold legal
  cases decode w <;> simp [Except.isOk, Except.toBool]

/-- Settles O3: the formats leave out exactly the words that R54 lists. -/
theorem illegalWordsAndTheirAnswer : Obligations.IllegalWordsAndTheirAnswer := by
  unfold Obligations.IllegalWordsAndTheirAnswer
  refine ⟨fun _ => illegal_iff, fun _ hop => legal_iff_format.mpr ⟨.CALCULATE, hop⟩, fun w s hw => ?_⟩
  obtain ⟨e, hd⟩ := legal_eq_false_iff_decode.mp hw
  exact Machine.runWord_of_illegal hd s

end Sys2Proof
end

section
/-! SUPPORT. The response of a command word (spec/30_encoding.md R58): its layout, and which one waits when the word ends. -/

namespace Sys2Proof.Machine

/-- `word[15:0]` is the data. -/
theorem Response.word_data (r : Response) : r.word.extractLsb' 0 16 = r.data :=
  BitVec.extractLsb'_append_eq_right

/-- `word[16]` is the status. -/
theorem Response.word_status (r : Response) : r.word.getLsbD 16 = decide (r.status = .illegal) := by
  rw [Response.word, BitVec.getLsbD_append]
  cases r.status <;> rfl

/-- The data of a command's response, from the `ACC` it finds (R58). -/
def answerData (acc : Word) : Instr → Word
  | .result => acc
  | _       => 0x0000#16

/-- A command that ends leaves its one response waiting. -/
theorem exec_phase {i : Instr} {s t : State} (h : exec i s = .next t) :
    t.phase = .responding { status := .ok, data := answerData s.acc i } := by
  cases i with
  | seed value => cases h; rfl
  | update byte => cases h; rfl
  | calculate initial length ptr =>
    obtain ⟨_, _, rfl⟩ := exec_calculate_next_iff.mp h
    rfl
  | result => cases h; rfl
  | resultArray ptr =>
    obtain ⟨_, _, rfl⟩ := exec_resultArray_next_iff.mp h
    rfl

/-- Settles O6, by what the word decodes to. -/
theorem everyWordAnswersOneResponse : Obligations.EveryWordAnswersOneResponse := by
  unfold Obligations.EveryWordAnswersOneResponse
  refine ⟨fun r => ⟨r.word_data, r.word_status⟩, fun w s t h => ?_⟩
  obtain ⟨_, _, _, _, hresponses⟩ := runWord_phase h
  refine ⟨hresponses, ?_⟩
  cases hd : decode w with
  | error e =>
    rw [runWord_of_illegal hd] at h
    cases h
    rw [legal_eq_false_iff_decode.mpr ⟨e, hd⟩]
    rfl
  | ok i =>
    rw [runWord_of_ok hd] at h
    rw [exec_phase h, legal_iff_decode.mpr ⟨i, hd⟩]
    cases i <;> rfl

end Sys2Proof.Machine
end

section
/-! SUPPORT. SEED (spec/40_seed.md R63, R64): what it answers, and that a RESULT sent next returns the seed. -/

namespace Sys2Proof.Machine

/-- R63: SEED ends in every state, over the named operations. -/
theorem exec_seed (value : Word) (s : State) : exec (.seed value) s = .next (respondOk (s.setAcc value)) := rfl

/-- R87: RESULT ends in every state and answers the `ACC` it finds. -/
theorem exec_result (s : State) : exec .result s = .next (respond .ok s.acc s) := rfl

/-- Taking a response, or dropping the command under way, leaves `ACC`. -/
@[simp] theorem makeIdle_acc (s : State) : (makeIdle s).acc = s.acc := by
  unfold makeIdle
  split <;> rfl

/-- Settles O16: the seeded and answering state, written out field by field. -/
theorem seedCompletes : Obligations.SeedCompletes :=
  exec_seed

/-- Settles O17: SEED leaves `v` in `ACC`, taking its response keeps `ACC`, and RESULT answers the `ACC` it finds. -/
theorem seedThenResult : Obligations.SeedThenResult := by
  unfold Obligations.SeedThenResult
  intro v s
  have hacc : (makeIdle (respondOk (s.setAcc v))).acc = v := by
    rw [makeIdle_acc, respondOk_acc, setAcc_acc]
  refine ⟨_, _, exec_seed v s, exec_result _, ?_, ?_⟩
  · rw [respond_phase, hacc]
  · rw [respond_acc, hacc]

end Sys2Proof.Machine
end

section
/-! SUPPORT. The bit step and the update (spec/41_update.md R67 to R70, R72 to R77): the bits of a bit step, and that bit
steps are linear over exclusive OR, from which the algebra of an update follows. -/

namespace Sys2Proof.Machine

/-! ## The two cases of a bit step, and its bits (R67, R70) -/

theorem bitstep_of_ne {p a : Word} {d : Bool} (h : d ≠ crcBit a) : bitstep p a d = (a <<< 1) ^^^ p := if_pos h

theorem bitstep_of_eq {p a : Word} {d : Bool} (h : d = crcBit a) : bitstep p a d = a <<< 1 := if_neg (not_not.mpr h)

/-- With no polynomial a bit step is a shift, whatever the feedback. -/
theorem bitstep_zero_polynom (a : Word) (d : Bool) : bitstep 0x0000#16 a d = a <<< 1 := by
  rw [bitstep_eq_xor, ite_self, BitVec.xor_zero]

theorem getLsbD_shiftLeft_of_le (a : Word) {n k : Nat} (hn : n ≤ k) (hk : k ≤ 15) :
    (a <<< n).getLsbD k = a.getLsbD (k - n) := by
  rw [BitVec.getLsbD_shiftLeft, decide_eq_true (by omega), decide_eq_false (by omega), Bool.not_false, Bool.true_and,
    Bool.true_and]

/-- The bits of the polynomial masked by the feedback bit. -/
theorem getLsbD_masked (f : Bool) (p : Word) (k : Nat) :
    (if f then p else 0#16).getLsbD k = (f && p.getLsbD k) := by
  cases f
  · exact BitVec.getLsbD_zero
  · rfl

theorem bitstep_getLsbD_zero (p a : Word) (d : Bool) :
    (bitstep p a d).getLsbD 0 = ((d ^^ a.getLsbD 15) && p.getLsbD 0) := by
  rw [bitstep_eq_xor, BitVec.getLsbD_xor, getLsbD_masked, BitVec.getLsbD_shiftLeft, decide_eq_true Nat.zero_lt_one,
    Bool.not_true, Bool.and_false, Bool.false_and, Bool.false_xor, crcBit]

theorem bitstep_getLsbD_pos (p a : Word) (d : Bool) {k : Nat} (h1 : 1 ≤ k) (h15 : k ≤ 15) :
    (bitstep p a d).getLsbD k = (a.getLsbD (k - 1) ^^ ((d ^^ a.getLsbD 15) && p.getLsbD k)) := by
  rw [bitstep_eq_xor, BitVec.getLsbD_xor, getLsbD_masked, getLsbD_shiftLeft_of_le a h1 h15, crcBit]

/-- Settles O8, by the two cases of the bit step. -/
theorem bitStepRule : Obligations.BitStepRule := by
  unfold Obligations.BitStepRule
  exact fun p a d => ⟨bitstep_of_ne, bitstep_of_eq⟩

/-- The default polynomial 0x8005 has the bits 0, 2 and 15 (R66). -/
theorem getLsbD_defaultPolynom {k : Nat} (hk : k < 16) :
    (0x8005#16).getLsbD k = decide (k = 0 ∨ k = 2 ∨ k = 15) := by
  revert k
  decide

/-- Settles O9: the wires for any polynomial, and what the bits of 0x8005 leave of them. -/
theorem bitStepAsWires : Obligations.BitStepAsWires := by
  unfold Obligations.BitStepAsWires
  refine ⟨fun p a d => ⟨bitstep_getLsbD_zero p a d, fun k => bitstep_getLsbD_pos p a d⟩,
    fun a d => ⟨?_, ?_, ?_, fun k h1 h14 h2 => ?_⟩⟩
  · exact (bitstep_getLsbD_zero _ a d).trans (Bool.and_true _)
  · rw [bitstep_getLsbD_pos _ a d (k := 2) (by decide) (by decide)]
    exact congrArg _ (Bool.and_true _)
  · rw [bitstep_getLsbD_pos _ a d (k := 15) (by decide) (by decide)]
    exact congrArg _ (Bool.and_true _)
  · have hbit : (0x8005#16).getLsbD k = false := by
      rw [getLsbD_defaultPolynom (by omega), decide_eq_false_iff_not]
      omega
    rw [bitstep_getLsbD_pos _ a d h1 (by omega), hbit, Bool.and_false, Bool.xor_false]

/-! ## Linearity (R75) -/

theorem crcBit_xor (a1 a2 : Word) : crcBit (a1 ^^^ a2) = (crcBit a1 ^^ crcBit a2) := BitVec.getLsbD_xor

theorem masked_xor (f g : Bool) (p : Word) :
    (if f ^^ g then p else 0#16) = (if f then p else 0#16) ^^^ (if g then p else 0#16) := by
  cases f <;> cases g <;> simp

/-- The feedback bit, the mask of the polynomial and the shift are each linear. -/
theorem bitstep_xor (p a1 a2 : Word) (d1 d2 : Bool) :
    bitstep p (a1 ^^^ a2) (d1 ^^ d2) = bitstep p a1 d1 ^^^ bitstep p a2 d2 := by
  have hfeedback : ((d1 ^^ d2) ^^ crcBit (a1 ^^^ a2)) = ((d1 ^^ crcBit a1) ^^ (d2 ^^ crcBit a2)) := by
    rw [crcBit_xor, Bool.xor_assoc, Bool.xor_assoc, Bool.xor_left_comm d2]
  rw [bitstep_eq_xor, bitstep_eq_xor, bitstep_eq_xor, hfeedback, masked_xor, BitVec.shiftLeft_xor_distrib]
  ac_rfl

theorem bitsteps_xor (p : Word) (b1 b2 : Byte) (i n : Nat) (a1 a2 : Word) :
    bitsteps p (b1 ^^^ b2) i n (a1 ^^^ a2) = bitsteps p b1 i n a1 ^^^ bitsteps p b2 i n a2 := by
  induction n generalizing i a1 a2 with
  | zero => rfl
  | succ n ih =>
    have hd : dataBit (b1 ^^^ b2) i = (dataBit b1 i ^^ dataBit b2 i) := BitVec.getLsbD_xor
    rw [bitsteps_succ, bitsteps_succ, bitsteps_succ, hd, bitstep_xor, ih]

theorem updateFn_xor (p a1 a2 : Word) (b1 b2 : Byte) :
    updateFn p (a1 ^^^ a2) (b1 ^^^ b2) = updateFn p a1 b1 ^^^ updateFn p a2 b2 :=
  bitsteps_xor p b1 b2 0 8 a1 a2

/-- Settles O13: linearity, and its case `a ^ 0`, `0 ^ b`. -/
theorem updateIsLinear : Obligations.UpdateIsLinear := by
  unfold Obligations.UpdateIsLinear
  refine fun p a1 a2 b1 b2 => ⟨updateFn_xor p a1 a2 b1 b2, ?_⟩
  rw [← updateFn_xor, BitVec.xor_zero, BitVec.zero_xor]

/-! ## Streams (R68, R72, R74) -/

/-- Settles O10, by putting the eight steps together. -/
theorem updateIsEightBitSteps : Obligations.UpdateIsEightBitSteps := by
  unfold Obligations.UpdateIsEightBitSteps
  rintro p a0 _ _ _ _ _ _ _ _ b rfl rfl rfl rfl rfl rfl rfl rfl
  rfl

/-- Settles O11: a fold over a stream in two parts. -/
theorem streamMayBeCut : Obligations.StreamMayBeCut := by
  unfold Obligations.StreamMayBeCut
  exact fun p s bs xs ys b => ⟨crcFn_nil p s, crcFn_append_singleton p s bs b, List.foldl_append⟩

/-- A linear map takes zero to zero. -/
theorem updateFn_zero (p : Word) : updateFn p 0x0000#16 0x00#8 = 0x0000#16 :=
  calc updateFn p 0x0000#16 0x00#8
    _ = updateFn p 0x0000#16 0x00#8 ^^^ updateFn p 0x0000#16 0x00#8 := updateFn_xor p 0x0000#16 0x0000#16 0x00#8 0x00#8
    _ = 0x0000#16 := BitVec.xor_self

/-- Settles O12, by induction on the stream. -/
theorem zeroStreamKeepsZero : Obligations.ZeroStreamKeepsZero := by
  unfold Obligations.ZeroStreamKeepsZero
  refine fun p => ⟨updateFn_zero p, fun bs hbs => ?_⟩
  induction bs with
  | nil => exact crcFn_nil p _
  | cons b bs ih =>
    obtain ⟨rfl, htail⟩ := List.forall_mem_cons.mp hbs
    rw [crcFn_cons, updateFn_zero, ih htail]

/-! ## Updates that are shifts (R69's corner, R76) -/

theorem shiftLeft_eight (a : Word) : a <<< 8 = a.extractLsb' 0 8 ++ 0x00#8 :=
  BitVec.shiftLeft_eq_concat_of_lt (by decide)

/-- Bit steps that each only shift are one shift. -/
theorem bitsteps_eq_shiftLeft {p a : Word} {b : Byte} {i n : Nat}
    (h : ∀ j < n, bitstep p (a <<< j) (dataBit b (i + j)) = a <<< j <<< 1) :
    bitsteps p b i n a = a <<< n := by
  induction n generalizing i a with
  | zero => exact (BitVec.shiftLeft_zero a).symm
  | succ n ih =>
    have hfirst : bitstep p a (dataBit b i) = a <<< 1 := by simpa using h 0 (Nat.succ_pos n)
    have hrest : ∀ j < n, bitstep p (a <<< 1 <<< j) (dataBit b (i + 1 + j)) = a <<< 1 <<< j <<< 1 := by
      intro j hj
      have hnext := h (j + 1) (Nat.succ_lt_succ hj)
      rwa [Nat.add_comm j 1, BitVec.shiftLeft_add, ← Nat.add_assoc] at hnext
    rw [bitsteps_succ, hfirst, ih hrest, ← BitVec.shiftLeft_add, Nat.add_comm]

theorem rev8_getLsbD (b : Byte) {i : Nat} (hi : i ≤ 7) : (rev8 b).getLsbD (7 - i) = b.getLsbD i := by
  rw [rev8, BitVec.getLsbD_reverse, BitVec.getMsbD, decide_eq_true (by omega), Bool.true_and]
  congr 1
  omega

theorem getLsbD_rev8_append (b : Byte) {j : Nat} (hj : j ≤ 7) :
    (rev8 b ++ 0x00#8).getLsbD (15 - j) = b.getLsbD j := by
  rw [BitVec.getLsbD_append, if_neg (by omega), ← rev8_getLsbD b hj]
  congr 1
  omega

theorem crcBit_shiftLeft (a : Word) {j : Nat} (hj : j ≤ 15) : crcBit (a <<< j) = a.getLsbD (15 - j) :=
  getLsbD_shiftLeft_of_le a hj le_rfl

/-- With the byte, bit reversed, at the top of the register every data bit meets itself: no bit step has feedback, and
the byte is shifted out. -/
theorem updateFn_rev8_append (p : Word) (b : Byte) : updateFn p (rev8 b ++ 0x00#8) b = 0x0000#16 := by
  have hshift : updateFn p (rev8 b ++ 0x00#8) b = (rev8 b ++ 0x00#8) <<< 8 := by
    refine bitsteps_eq_shiftLeft fun j hj => ?_
    have hmeets : dataBit b (0 + j) = crcBit ((rev8 b ++ 0x00#8) <<< j) := by
      rw [crcBit_shiftLeft _ (by omega), getLsbD_rev8_append b (Nat.le_of_lt_succ hj), dataBit, Nat.zero_add]
    exact bitstep_of_eq hmeets
  rw [hshift, shiftLeft_eight, BitVec.extractLsb'_append_eq_right]
  rfl

/-- A register and a data bit that a bit step takes to zero may be added without a change (linearity). -/
theorem bitstep_xor_of_eq_zero {p c : Word} {d' : Bool} (a : Word) (d : Bool)
    (h : bitstep p c d' = 0x0000#16) :
    bitstep p (a ^^^ c) (d ^^ d') = bitstep p a d := by
  rw [bitstep_xor, h, BitVec.xor_zero]

/-- Settles O14: by linearity, as the byte's own contribution at the top cancels the byte. -/
theorem dataEntersAtTheTop : Obligations.DataEntersAtTheTop := by
  unfold Obligations.DataEntersAtTheTop
  refine ⟨fun p a b => ?_, fun b i => rev8_getLsbD b, fun p a d => ?_⟩
  · calc updateFn p a b
      _ = updateFn p a b ^^^ updateFn p (rev8 b ++ 0x00#8) b := by rw [updateFn_rev8_append, BitVec.xor_zero]
      _ = updateFn p (a ^^^ (rev8 b ++ 0x00#8)) 0x00#8 := by rw [← updateFn_xor, BitVec.xor_self]
  · have htop : bitstep p (BitVec.ofBool d ++ 0#15) d = 0x0000#16 := by
      rw [bitstep_of_eq] <;> cases d <;> rfl
    rw [← bitstep_xor_of_eq_zero a d htop, Bool.xor_self]

/-! ## Bijectivity (R77) -/

theorem bitstep_injective {p : Word} (hp : p.getLsbD 0 = true) (d : Bool) :
    Function.Injective fun a => bitstep p a d := by
  intro a a' h
  have hbit (k : Nat) : (bitstep p a d).getLsbD k = (bitstep p a' d).getLsbD k := congrArg (·.getLsbD k) h
  have htop : a.getLsbD 15 = a'.getLsbD 15 := by
    have h0 := hbit 0
    rw [bitstep_getLsbD_zero, bitstep_getLsbD_zero, hp, Bool.and_true, Bool.and_true] at h0
    exact Bool.xor_right_inj.mp h0
  refine BitVec.eq_of_getLsbD_eq fun k hk => ?_
  rcases Nat.lt_or_eq_of_le (Nat.le_of_lt_succ hk) with hk | rfl
  · have hsucc := hbit (k + 1)
    rw [bitstep_getLsbD_pos p a d (by omega) hk, bitstep_getLsbD_pos p a' d (by omega) hk, htop] at hsucc
    exact Bool.xor_left_inj.mp hsucc
  · exact htop

theorem bitsteps_injective {p : Word} (hp : p.getLsbD 0 = true) (b : Byte) (i n : Nat) :
    Function.Injective (bitsteps p b i n) := by
  induction n generalizing i with
  | zero => exact Function.injective_id
  | succ n ih => exact (ih (i + 1)).comp (bitstep_injective hp (dataBit b i))

/-- The two registers differ by one that a bit step takes to zero: its top bit turns the feedback on, and its shift is
the polynomial. -/
theorem bitstep_collision {p : Word} (hp : p.getLsbD 0 = false) (a : Word) (d : Bool) :
    bitstep p (a ^^^ 0x8000#16 ^^^ (p >>> 1)) d = bitstep p a d := by
  have hback : (p >>> 1) <<< 1 = p := by
    refine BitVec.eq_of_getLsbD_eq fun k hk => ?_
    rcases Nat.eq_zero_or_pos k with rfl | hpos
    · simpa using hp.symm
    · rw [getLsbD_shiftLeft_of_le _ hpos (Nat.le_of_lt_succ hk), BitVec.getLsbD_ushiftRight, Nat.add_sub_cancel' hpos]
  have hlost : bitstep p (0x8000#16 ^^^ (p >>> 1)) false = 0x0000#16 := by
    rw [bitstep_of_ne (by simp [crcBit]), BitVec.shiftLeft_xor_distrib, hback]
    simp
  rw [BitVec.xor_assoc, ← bitstep_xor_of_eq_zero a d hlost, Bool.xor_false]

/-- Settles O15: the wires give the register back from its successor, and an injective map of a finite type is a
bijection; a collision in the first bit step is a collision of the update. -/
theorem updateIsABijection : Obligations.UpdateIsABijection := by
  unfold Obligations.UpdateIsABijection
  refine ⟨fun p b hp => ?_, fun p a d hp => (bitstep_collision hp a d).symm, fun p b hp hinj => ?_⟩
  · exact Finite.injective_iff_bijective.mp (bitsteps_injective hp b 0 8)
  · have hsame : updateFn p (0x0000#16 ^^^ 0x8000#16 ^^^ (p >>> 1)) b = updateFn p 0x0000#16 b :=
      congrArg (bitsteps p b 1 7) (bitstep_collision hp 0x0000#16 (dataBit b 0))
    have htop : (0x0000#16 ^^^ 0x8000#16 ^^^ (p >>> 1)).getLsbD 15 = false := congrArg (·.getLsbD 15) (hinj hsame)
    simp at htop

/-! ## The command (R69, R73) -/

/-- R69: UPDATE ends in every state, over the named operations. -/
theorem exec_update (byte : Byte) (s : State) : exec (.update byte) s = .next (respondOk (foldByte byte s)) := rfl

@[simp] theorem makeIdle_cfg (s : State) : (makeIdle s).cfg = s.cfg := by
  unfold makeIdle
  split <;> rfl

/-- Settles O18: the folded and answering state, and with no polynomial eight shifts. -/
theorem updateCompletes : Obligations.UpdateCompletes := by
  unfold Obligations.UpdateCompletes
  refine ⟨exec_update, fun a b => ?_⟩
  have hshift : updateFn 0x0000#16 a b = a <<< 8 := bitsteps_eq_shiftLeft fun j _ =>
    bitstep_zero_polynom (a <<< j) _
  rw [hshift, shiftLeft_eight]

/-- R73: after SEED `v` and UPDATE `b` the accumulator no longer depends on the state they were sent in. -/
theorem execAll_seed_update (v : Word) (b : Byte) (s : State) :
    ∃ t, execAll [.seed v, .update b] s = .next t ∧ t.acc = updateFn s.cfg.polynom v b := by
  refine ⟨makeIdle (respondOk (foldByte b (makeIdle (respondOk (s.setAcc v))))), rfl, ?_⟩
  simp only [makeIdle_acc, makeIdle_cfg, respondOk_acc, respondOk_cfg, foldByte_acc, setAcc_acc, setAcc_cfg]

/-- Settles O19: RESULT answers the accumulator, and only `POLYNOM` of the state before has gone into it. -/
theorem updateIsDeterministic : Obligations.UpdateIsDeterministic := by
  unfold Obligations.UpdateIsDeterministic
  intro v b s1 s2 hp
  obtain ⟨t1, h1, hacc1⟩ := execAll_seed_update v b s1
  obtain ⟨t2, h2, hacc2⟩ := execAll_seed_update v b s2
  refine ⟨t1, t2, _, _, h1, h2, exec_result t1, exec_result t2, ?_, ?_⟩
  · rw [respond_phase, hacc1]
  · rw [respond_phase, respond_phase, hacc1, hacc2, hp]

end Sys2Proof.Machine
end

section
/-! SUPPORT. CALCULATE (spec/42_calculate.md R80 to R82, R85): what it answers over a readable buffer, that SEED and UPDATEs
over the same bytes leave the same `ACC`, and that every command ends: each edge without a wait brings the command's end
exactly one edge nearer. -/

namespace Sys2Proof.Machine

/-! ## Over a readable buffer (R80, R81) -/

/-- CALCULATE ends over a readable buffer, with the port free if it reads at all. -/
theorem exec_calculate_of_readable {initial length : Byte} {ptr : Addr} {s : State}
    (hport : length ≠ 0#8 → s.bus = none) (hread : BufferReadable s ptr length.toNat) :
    exec (.calculate initial length ptr) s = .next (afterCalculate initial length ptr s) :=
  exec_calculate_next_iff.mpr ⟨fun h0 => hport fun h => h0 (congrArg BitVec.toNat h), hread, rfl⟩

/-- Settles O20: the state in which CALCULATE ends, written out field by field. -/
theorem calculateCompletes : Obligations.CalculateCompletes := by
  unfold Obligations.CalculateCompletes
  intro initial length ptr s hport hread
  exact exec_calculate_of_readable hport hread

/-- A buffer of length 0 folds nothing into the seed. -/
theorem exec_calculate_zero (initial : Byte) (ptr : Addr) (s : State) :
    exec (.calculate initial 0#8 ptr) s = .next (respondOk (s.setAcc (zextInitial initial))) := rfl

/-- Settles O21: the seeded and answering state, which SEED answers too. -/
theorem calculateOfLengthZeroIsSeed : Obligations.CalculateOfLengthZeroIsSeed := by
  unfold Obligations.CalculateOfLengthZeroIsSeed
  intro initial ptr s
  exact ⟨(exec_calculate_zero initial ptr s).trans (exec_seed (zextInitial initial) s).symm,
    exec_calculate_zero initial ptr s⟩

/-! ## CALCULATE and the streaming commands (R82) -/

/-- The first of a sequence of commands, when it ends. -/
theorem execAll_cons_of_next {i : Instr} {s t : State} (is : List Instr) (h : exec i s = .next t) :
    execAll (i :: is) s = execAll is (makeIdle t) := by
  rw [execAll, h, andThen_next]

@[simp] theorem makeIdle_mem (s : State) : (makeIdle s).mem = s.mem := by
  unfold makeIdle
  split <;> rfl

/-- A sequence of UPDATEs folds its bytes into `ACC` and leaves memory. -/
theorem execAll_updates (bytes : List Byte) (s : State) :
    ∃ t, execAll (bytes.map .update) s = .next t ∧ t.acc = crcFn s.cfg.polynom s.acc bytes ∧ t.mem = s.mem := by
  induction bytes generalizing s with
  | nil => exact ⟨s, rfl, rfl, rfl⟩
  | cons b bytes ih =>
    obtain ⟨t, ht, hacc, hmem⟩ := ih (makeIdle (respondOk (foldByte b s)))
    refine ⟨t, ?_, ?_, ?_⟩
    · rw [List.map_cons, execAll_cons_of_next _ (exec_update b s), ht]
    · rw [hacc, makeIdle_cfg, makeIdle_acc, crcFn_cons]
      rfl
    · rw [hmem, makeIdle_mem]
      rfl

/-- Settles O22: both routes leave the fold of the bytes from the seed. -/
theorem calculateEqualsStreaming : Obligations.CalculateEqualsStreaming := by
  unfold Obligations.CalculateEqualsStreaming
  intro initial length ptr s hport hread
  obtain ⟨u, hu, hacc, hmem⟩ := execAll_updates (bufferBytes s.mem ptr length.toNat)
    (makeIdle (respondOk (s.setAcc (zextInitial initial))))
  rw [makeIdle_acc, makeIdle_cfg] at hacc
  rw [makeIdle_mem] at hmem
  refine ⟨_, u, exec_calculate_of_readable hport hread, ?_, hacc.symm, rfl, rfl, hmem⟩
  rw [execAll_cons_of_next _ (exec_seed (initial.setWidth 16) s)]
  exact hu

/-! ## The measure of a command under way (R125) -/

theorem Buffer.left_le (buf : Buffer) : buf.left ≤ 255 := by
  have := buf.length.isLt
  unfold Buffer.left
  omega

theorem Buffer.left_pos {buf : Buffer} (hi : buf.index.toNat < buf.length.toNat) : 0 < buf.left :=
  Nat.sub_pos_of_lt hi

theorem wordEdges_le (w : CmdWord) : wordEdges w ≤ 2551 := by
  unfold wordEdges
  split
  case h_2 _ length _ _ =>
    have := length.isLt
    omega
  all_goals omega

theorem edgesLeft_le (s : State) : s.edgesLeft ≤ 2551 := by
  unfold State.edgesLeft
  split
  case h_3 w _ => exact wordEdges_le w
  case h_5 buf _ | h_6 buf _ | h_7 buf _ _ _ =>
    have := buf.left_le
    omega
  all_goals omega

theorem phase_wf_of_inv {s : State} (hinv : s.inv = true) : s.phase.wf = true := by
  obtain ⟨_, hwf, _⟩ := (inv_iff s).mp hinv
  exact hwf

/-- No edge is left exactly when no command is under way. -/
theorem edgesLeft_eq_zero_iff {s : State} (hwf : s.phase.wf = true) : s.edgesLeft = 0 ↔ s.atBoundary = true := by
  cases hp : s.phase <;> simp only [State.edgesLeft, State.atBoundary, hp, Bool.false_eq_true, iff_false]
  case latched w => exact (wordEdges_pos w).ne'
  case updating => omega
  case readRequest buf | readWait buf =>
    have := Buffer.left_pos (buf := buf) (by simpa [Phase.wf, hp] using hwf)
    omega
  case folding => omega
  case writeRequest ptr o | writeWait ptr o => cases o <;> simp

/-! ## An edge without a wait brings the end one edge nearer -/

theorem edgesLeft_latchedEdge (w : CmdWord) (s : State) : (latchedEdge w s).edgesLeft + 1 = wordEdges w := by
  unfold latchedEdge wordEdges
  cases decode w with
  | error e => rfl
  | ok i =>
    cases i with
    | seed value => rfl
    | update byte => rfl
    | calculate initial length ptr =>
      dsimp only
      split
      · next h =>
        subst h
        rfl
      · exact Nat.add_comm ..
    | result => rfl
    | resultArray ptr => rfl

theorem edgesLeft_updatingEdge (byte : Byte) (bit : Fin 8) (s : State) :
    (updatingEdge byte bit s).edgesLeft = 7 - bit.val := by
  unfold updatingEdge
  dsimp only
  split
  · next h =>
    subst h
    rfl
  · next h =>
    change 8 - (bit + 1).val = 7 - bit.val
    rw [Fin.val_add_one_of_lt (Fin.lt_last_iff_ne_last.mpr h)]
    omega

theorem edgesLeft_foldingEdge {buf : Buffer} (byte : Byte) (bit : Fin 8) (s : State)
    (hi : buf.index.toNat < buf.length.toNat) :
    (foldingEdge buf byte bit s).edgesLeft = 10 * (buf.left - 1) + (7 - bit.val) := by
  unfold foldingEdge
  dsimp only
  split
  · next h =>
    subst h
    cases hl : buf.isLast with
    | true =>
      simp only [Buffer.isLast, decide_eq_true_eq] at hl
      change 0 = 10 * (buf.length.toNat - buf.index.toNat - 1)
      omega
    | false => exact congrArg (10 * ·) (Buffer.next_left_addr hi hl).1
  · next h =>
    change 10 * (buf.left - 1) + (8 - (bit + 1).val) = _
    rw [Fin.val_add_one_of_lt (Fin.lt_last_iff_ne_last.mpr h)]
    omega

/-- With a command under way, the engine's side of an edge at which it does not wait is one edge of the measure. -/
theorem engineEdge_edgesLeft {p : Pins} {s t : State} (hwf : s.phase.wf = true) (hw : ¬ waitsAt p s)
    (hleft : s.edgesLeft ≠ 0) (h : engineEdge p s = .ok t) : t.edgesLeft + 1 = s.edgesLeft := by
  simp only [waitsAt, not_or, not_and, Bool.not_eq_false] at hw
  obtain ⟨_, hreq, hrsp, _⟩ := hw
  unfold engineEdge at h
  cases hp : s.phase with
  | idle => simp [State.edgesLeft, hp] at hleft
  | responding r => simp [State.edgesLeft, hp] at hleft
  | latched w =>
    simp only [hp, Except.ok.injEq] at h
    subst h
    rw [edgesLeft_latchedEdge]
    simp only [State.edgesLeft, hp]
  | updating byte bit =>
    simp only [hp, Except.ok.injEq] at h
    subst h
    rw [edgesLeft_updatingEdge]
    simp only [State.edgesLeft, hp]
    omega
  | readRequest buf =>
    have hpos : 0 < buf.left := Buffer.left_pos (by simpa [Phase.wf, hp] using hwf)
    simp only [hp, hreq (by simp [State.offered, hp]), if_true] at h
    obtain ⟨_, _, rfl⟩ := transfer_ok_iff.mp h
    simp only [State.edgesLeft, hp]
    omega
  | readWait buf =>
    have hpos : 0 < buf.left := Buffer.left_pos (by simpa [Phase.wf, hp] using hwf)
    simp only [hp, hrsp (by simp [State.awaited, hp]), if_true, Except.ok.injEq] at h
    subst h
    simp only [State.edgesLeft, hp, setPhase_phase, Fin.val_zero]
    omega
  | folding buf byte bit =>
    have hi : buf.index.toNat < buf.length.toNat := by simpa [Phase.wf, hp] using hwf
    simp only [hp, Except.ok.injEq] at h
    subst h
    rw [edgesLeft_foldingEdge byte bit s hi]
    simp only [State.edgesLeft, hp]
    omega
  | writeRequest ptr o =>
    simp only [hp, hreq (by simp [State.offered, hp]), if_true] at h
    obtain ⟨_, _, rfl⟩ := transfer_ok_iff.mp h
    cases o <;> simp only [State.edgesLeft, hp]
  | writeWait ptr o =>
    simp only [hp, hrsp (by simp [State.awaited, hp]), if_true, Except.ok.injEq] at h
    subst h
    cases o <;> simp only [State.edgesLeft, hp] <;> rfl

/-- An edge without reset and without a wait is one edge of the measure of the command under way. -/
theorem edgesLeft_of_moving_edge {p : Pins} {s t : State} (hwf : s.phase.wf = true) (hr : p.rst = false)
    (hleft : s.edgesLeft ≠ 0) (hw : ¬ waitsAt p s) (h : edge p s = .next t) : t.edgesLeft + 1 = s.edgesLeft := by
  obtain ⟨_, _, hphase, _⟩ := memoryEdge_frame p s
  rw [← edgesLeft_of_phase hphase] at hleft ⊢
  rw [← hphase] at hwf
  exact engineEdge_edgesLeft hwf (mt (waitsAt_memoryEdge p s).mp hw) hleft ((edge_next hr).mp h)

/-- An edge without reset at which the engine waits leaves the hidden state and `ACC` (R126). -/
theorem waiting_edge_frame {p : Pins} {s t : State} (hr : p.rst = false) (hw : waitsAt p s) (h : edge p s = .next t) :
    t.phase = s.phase ∧ t.acc = s.acc := by
  obtain ⟨_, hacc, hphase, _⟩ := memoryEdge_frame p s
  rw [edge_of_waitsAt hr hw] at h
  cases h
  exact ⟨hphase, hacc⟩

/-! ## Enough edges without a wait reach the end (R85, R126) -/

theorem atBoundary_cases {s : State} (h : s.atBoundary = true) :
    s.phase = .idle ∨ ∃ r, s.phase = .responding r := by
  cases hp : s.phase <;> simp [State.atBoundary, hp] at h ⊢

/-- A busy engine with no edge left has its response waiting. -/
theorem responding_of_edgesLeft_eq_zero {s : State} (hinv : s.inv = true) (hidle : s.phase ≠ .idle)
    (hleft : s.edgesLeft = 0) : ∃ r, s.phase = .responding r :=
  (atBoundary_cases ((edgesLeft_eq_zero_iff (phase_wf_of_inv hinv)).mp hleft)).resolve_left hidle

/-- A busy engine that leaves its response waiting either waits at an edge, and the measure stays, or comes one edge
nearer to its end. -/
theorem edgesLeft_of_edge {p : Pins} {s t : State} (hinv : s.inv = true) (hidle : s.phase ≠ .idle)
    (hr : p.rst = false) (hrsp : p.rspReady = false) (h : edge p s = .next t) :
    t.edgesLeft + (if waitsAt p s then 0 else 1) = s.edgesLeft := by
  split
  case isTrue hw => exact edgesLeft_of_phase (waiting_edge_frame hr hw h).1
  case isFalse hw =>
    refine edgesLeft_of_moving_edge (phase_wf_of_inv hinv) hr (fun hleft => hw ?_) hw h
    obtain ⟨r, hp⟩ := responding_of_edgesLeft_eq_zero hinv hidle hleft
    exact .inr (.inr (.inr ⟨by simp [State.offeredResponse, hp], hrsp⟩))

/-- After an edge that keeps the command's end, whatever reaches the end from the next state reaches it. -/
theorem edge_andThen_eq_finish {p : Pins} {s : State} {run : State → Host.Outcome State Fault Refusal}
    (hinv : s.inv = true) (hd : s.drained = true) (hidle : s.phase ≠ .idle) (hr : p.rst = false)
    (hrsp : p.rspReady = false) (hf : p.faithful s)
    (hrun : ∀ t, edge p s = .next t → t.inv = true → t.drained = true → t.phase ≠ .idle → run t = finish t) :
    andThen (edge p s) run = finish s := by
  have hend := edge_keeps_end hinv hd hidle hr hrsp hf
  rw [← hend]
  cases he : edge p s with
  | next t =>
    exact hrun t he (edge_keeps_inv hinv hr he) (edge_keeps_drained hd hr he) (edge_keeps_busy hidle hend he)
  | fault f => rfl
  | refused r => rfl

/-- Undisturbed edges with enough of them without a wait carry the command to its end. -/
theorem edges_eq_finish {ps : List Pins} {s : State} (hinv : s.inv = true) (hd : s.drained = true)
    (hidle : s.phase ≠ .idle) (hu : Undisturbed ps s) (henough : s.edgesLeft ≤ movingEdges ps s) :
    edges ps s = finish s := by
  induction ps generalizing s with
  | nil =>
    obtain ⟨r, hp⟩ := responding_of_edgesLeft_eq_zero hinv hidle (Nat.le_zero.mp henough)
    exact (finish_of_responding hp).symm
  | cons p ps ih =>
    obtain ⟨hr, hrsp, hf, hnext⟩ := hu
    refine edge_andThen_eq_finish hinv hd hidle hr hrsp hf fun t he hinv' hd' hidle' =>
      ih hinv' hd' hidle' (hnext t he) ?_
    have hstep := edgesLeft_of_edge hinv hidle hr hrsp he
    rw [movingEdges_cons ps he] at henough
    omega

theorem promptPins_faithful (s : State) : (promptPins s).faithful s := by
  intro a _ hb
  simp only [promptPins, hb]

/-- A memory that takes and completes every access at once makes a command under way wait nowhere. -/
theorem not_waitsAt_promptPins {s : State} (hinv : s.inv = true) (hleft : s.edgesLeft ≠ 0) :
    ¬ waitsAt (promptPins s) s := by
  obtain ⟨_, hwf, hbus, _⟩ := (inv_iff s).mp hinv
  rw [ne_eq, edgesLeft_eq_zero_iff hwf] at hleft
  rintro (⟨hp, _⟩ | ⟨_, hready⟩ | ⟨ha, hv⟩ | ⟨ho, _⟩)
  · exact hleft (atBoundary_of_idle hp)
  · cases hready
  · obtain ⟨a, ha⟩ := Option.isSome_iff_exists.mp ha
    simp [promptPins, hbus a ha] at hv
  · cases hp : s.phase <;> simp only [State.offeredResponse, hp, Option.isSome_none, Bool.false_eq_true] at ho
    case responding => exact hleft (atBoundary_of_responding hp)

/-- As many prompt edges as the measure counts carry the command to its end, and more leave it there. -/
theorem drive_eq_finish {k : Nat} {s : State} (hinv : s.inv = true) (hd : s.drained = true)
    (hidle : s.phase ≠ .idle) (henough : s.edgesLeft ≤ k) : drive k s = finish s := by
  induction k generalizing s with
  | zero =>
    obtain ⟨r, hp⟩ := responding_of_edgesLeft_eq_zero hinv hidle (Nat.le_zero.mp henough)
    exact (finish_of_responding hp).symm
  | succ k ih =>
    refine edge_andThen_eq_finish hinv hd hidle rfl rfl (promptPins_faithful s) fun t he hinv' hd' hidle' =>
      ih hinv' hd' hidle' ?_
    have hstep := edgesLeft_of_edge hinv hidle rfl rfl he
    by_cases hleft : s.edgesLeft = 0
    · omega
    · rw [if_neg (not_waitsAt_promptPins hinv hleft)] at hstep
      omega

/-- Settles O54: by the measure, which a wait keeps and every other edge lowers by one. -/
theorem everyCommandEnds : Obligations.EveryCommandEnds := by
  unfold Obligations.EveryCommandEnds
  refine ⟨fun s hinv => ?_, fun p s t hinv hleft hr h => ?_, fun _ _ => edges_eq_finish,
    fun s hinv hd hidle => drive_eq_finish hinv hd hidle (edgesLeft_le s)⟩
  · exact ⟨edgesLeft_le s, edgesLeft_eq_zero_iff (phase_wf_of_inv hinv)⟩
  · split
    case isTrue hw =>
      obtain ⟨hphase, hacc⟩ := waiting_edge_frame hr hw h
      exact ⟨edgesLeft_of_phase hphase, hphase, hacc⟩
    case isFalse hw => exact Nat.lt_of_succ_le (edgesLeft_of_moving_edge (phase_wf_of_inv hinv) hr hleft hw h).le

end Sys2Proof.Machine
end

section
/-! SUPPORT. RESULT and RESULT_ARRAY (spec/43_result.md R87, R88, R90, R91): what they answer, that a sequence of them leaves
`ACC`, and that the two bytes stored are the two halves of the value returned. -/

namespace Sys2Proof.Machine

/-! ## The commands (R87, R90) -/

/-- Settles O24: the answering state, written out field by field. -/
theorem resultCompletes : Obligations.ResultCompletes :=
  exec_result

/-- RESULT_ARRAY ends with the port free and both its bytes writable. -/
theorem exec_resultArray_of_writable {ptr : Addr} {s : State} (hb : s.bus = none) (hw : OutWritable s ptr) :
    exec (.resultArray ptr) s = .next (afterResultArray ptr s) :=
  exec_resultArray_next_iff.mpr ⟨hb, hw, rfl⟩

/-- Settles O26: the state in which RESULT_ARRAY ends, written out field by field. -/
theorem resultArrayCompletes : Obligations.ResultArrayCompletes := by
  unfold Obligations.ResultArrayCompletes
  intro ptr s hb hw
  exact exec_resultArray_of_writable hb hw

/-! ## Sequences of commands that leave `ACC` (R88) -/

/-- Making the engine idle takes the response that waits. -/
theorem makeIdle_of_responding {s : State} {r : Response} (hp : s.phase = .responding r) :
    makeIdle s = takeResponse r s := by
  rw [makeIdle, hp]

/-- A sequence of commands ends exactly when its first command ends and the others then do. -/
theorem execAll_cons_next_iff {i : Instr} {is : List Instr} {s t : State} :
    execAll (i :: is) s = .next t ↔ ∃ u, exec i s = .next u ∧ execAll is (makeIdle u) = .next t := by
  rw [execAll]
  cases exec i s with
  | next u => simp
  | fault f => simp
  | refused r => simp [andThen_refused]

/-- n RESULTs sent to an idle engine add n responses, each `ACC`, and change nothing else. -/
theorem execAll_replicate_result (n : Nat) {s : State} (hp : s.phase = .idle) :
    execAll (List.replicate n .result) s =
      .next { s with responses := s.responses ++ List.replicate n { status := .ok, data := s.acc } } := by
  induction n generalizing s with
  | zero => rw [List.replicate_zero, List.replicate_zero, List.append_nil, execAll]
  | succ n ih =>
    have hrest := ih (s := makeIdle (respond .ok s.acc s)) (makeIdle_phase _)
    rw [makeIdle_of_responding (respond_phase ..)] at hrest
    rw [List.replicate_succ, execAll_cons_of_next _ (exec_result s), makeIdle_of_responding (respond_phase ..), hrest,
      List.replicate_succ, hp, List.append_cons]
    rfl

/-- A sequence of commands none of which writes `ACC` answers each from the `ACC` it began with. -/
theorem execAll_of_not_writesAcc {is : List Instr} {s t : State} (his : ∀ i ∈ is, writesAcc i = false)
    (h : execAll is s = .next t) :
    t.acc = s.acc ∧
      t.responses = s.responses ++ is.map fun i => { status := .ok, data := answerData s.acc i } := by
  induction is generalizing s with
  | nil =>
    cases h
    exact ⟨rfl, (List.append_nil _).symm⟩
  | cons i is ih =>
    obtain ⟨hi, his⟩ := List.forall_mem_cons.mp his
    obtain ⟨u, hu, hrest⟩ := execAll_cons_next_iff.mp h
    have hacc : u.acc = s.acc := exec_acc_of_not_writesAcc hu hi
    obtain ⟨_, _, _, hresp⟩ := exec_frame hu
    obtain ⟨htacc, htresp⟩ := ih his hrest
    rw [makeIdle_of_responding (exec_phase hu)] at htacc htresp
    rw [takeResponse_acc, hacc] at htacc htresp
    rw [takeResponse_responses, hresp, List.append_assoc, List.singleton_append] at htresp
    exact ⟨htacc, htresp⟩

/-- Settles O25: RESULT and RESULT_ARRAY are the commands that do not write `ACC`. -/
theorem resultIsIdempotent : Obligations.ResultIsIdempotent := by
  unfold Obligations.ResultIsIdempotent
  refine ⟨fun n s => execAll_replicate_result n, fun is s t his h => ?_⟩
  have hkeep : ∀ i ∈ is, writesAcc i = false := by
    intro i hi
    obtain rfl | ⟨p, rfl⟩ := his i hi
    · rfl
    · rfl
  obtain ⟨hacc, hresp⟩ := execAll_of_not_writesAcc hkeep h
  refine ⟨hacc, hresp.trans (congrArg _ (List.map_congr_left fun i hi => ?_))⟩
  obtain rfl | ⟨p, rfl⟩ := his i hi
  · rfl
  · rfl

/-! ## The round trip (R91) -/

/-- The low byte of a word is the word masked with 0xFF. -/
theorem setWidth_lowByte (v : Word) : (lowByte v).setWidth 16 = v &&& 0x00FF#16 := by
  apply BitVec.eq_of_toNat_eq
  calc ((lowByte v).setWidth 16).toNat = v.toNat % 2 ^ 8 := by
        rw [lowByte, BitVec.toNat_setWidth_of_le (by decide), BitVec.extractLsb'_toNat, Nat.shiftRight_zero]
    _ = (v &&& 0x00FF#16).toNat := (Nat.and_two_pow_sub_one_eq_mod v.toNat 8).symm

/-- The high byte of a word is the low byte of the word shifted down by eight. -/
theorem highByte_eq_lowByte (v : Word) : highByte v = lowByte (v >>> 8) := by
  apply BitVec.eq_of_toNat_eq
  simp only [highByte, lowByte, BitVec.extractLsb'_toNat, BitVec.toNat_ushiftRight, Nat.shiftRight_zero]

/-- A word is its high byte before its low byte. -/
theorem highByte_append_lowByte (v : Word) : highByte v ++ lowByte v = v :=
  BitVec.extractLsb'_append_extractLsb' (w := 8) (len := 8)

/-- RESULT sent first changes nothing that RESULT_ARRAY reads, so memory is left as without it. -/
theorem exec_resultArray_after_result {ptr : Addr} {s : State} (hb : s.bus = none) (hw : OutWritable s ptr) :
    ∃ u, exec (.resultArray ptr) (makeIdle (respond .ok s.acc s)) = .next u ∧
      u.mem = (afterResultArray ptr s).mem := by
  rw [makeIdle_of_responding (respond_phase ..)]
  exact ⟨_, exec_resultArray_of_writable hb hw, rfl⟩

/-- Settles O28: RESULT returns `ACC` and leaves it and memory, and RESULT_ARRAY stores the two bytes of `ACC` and leaves
it, so in either order the value returned and the memory left are the same. -/
theorem resultArrayRoundTrip : Obligations.ResultArrayRoundTrip := by
  unfold Obligations.ResultArrayRoundTrip
  intro ptr s hb hw hm
  have hlow : (afterResultArray ptr s).mem.read ptr = lowByte s.acc := read_afterResultArray ptr .low hm
  have hhigh : (afterResultArray ptr s).mem.read (ptr + 1#16) = highByte s.acc := read_afterResultArray ptr .high hm
  obtain ⟨u, hu, hmem⟩ := exec_resultArray_after_result hb hw
  refine ⟨_, u, _, _, s.acc, exec_result s, respond_phase .., hu, ?_, ?_, ?_, exec_resultArray_of_writable hb hw,
    exec_result _, ?_, ?_⟩
  · rw [hmem, hlow, setWidth_lowByte]
  · rw [hmem, hhigh, highByte_eq_lowByte, setWidth_lowByte]
  · rw [hmem, hhigh, hlow, highByte_append_lowByte]
  · rw [respond_phase, makeIdle_acc]
    rfl
  · rw [respond_mem, makeIdle_mem, hmem]

end Sys2Proof.Machine
end

section
/-! SUPPORT. Exceptions (spec/60_exceptions.md R95, R96, R102): which commands can fault and why, that no step is refused,
what the host's next move does to an engine between commands, and that an illegal word leaves only its response. -/

namespace Sys2Proof.Machine

/-! ## Why a command faults (R36, R95, R115) -/

/-- CALCULATE faults only with the port busy or its buffer not readable. -/
theorem exec_calculate_fault {initial length : Byte} {ptr : Addr} {s : State} {f : Fault}
    (h : exec (.calculate initial length ptr) s = .fault f) :
    s.bus.isSome = true ∨ ¬ BufferReadable s ptr length.toNat := by
  rw [Option.isSome_iff_ne_none, ← not_and_or]
  rintro ⟨hport, hread⟩
  rw [exec_calculate_of_readable (fun _ => hport) hread] at h
  cases h

/-- RESULT_ARRAY faults only with the port busy or one of its bytes not writable. -/
theorem exec_resultArray_fault {ptr : Addr} {s : State} {f : Fault} (h : exec (.resultArray ptr) s = .fault f) :
    s.bus.isSome = true ∨ ¬ OutWritable s ptr := by
  rw [Option.isSome_iff_ne_none, ← not_and_or]
  rintro ⟨hport, hwrite⟩
  rw [exec_resultArray_of_writable hport hwrite] at h
  cases h

/-- The commands that fault, each with why it can. -/
theorem exec_fault_cases {i : Instr} {s : State} {f : Fault} (h : exec i s = .fault f) :
    (∃ initial length ptr, i = .calculate initial length ptr ∧
      (s.bus.isSome = true ∨ ¬ BufferReadable s ptr length.toNat)) ∨
    ∃ ptr, i = .resultArray ptr ∧ (s.bus.isSome = true ∨ ¬ OutWritable s ptr) := by
  cases i with
  | seed value => cases h
  | update byte => cases h
  | calculate initial length ptr => exact .inl ⟨initial, length, ptr, rfl, exec_calculate_fault h⟩
  | result => cases h
  | resultArray ptr => exact .inr ⟨ptr, rfl, exec_resultArray_fault h⟩

/-! ## Nothing is refused (R95) -/

theorem hostStore_ne_refused (a : Addr) (v : Byte) (s : State) (r : Refusal) : hostStore a v s ≠ .refused r := by
  unfold hostStore
  split
  · nofun
  · nofun

/-- No command under way is refused at its end. -/
theorem finish_ne_refused (s : State) (r : Refusal) : finish s ≠ .refused r := by
  unfold finish
  split
  · nofun
  · exact runWord_ne_refused _ _ _
  · nofun
  · exact outcomeOf_ne_refused
  · exact outcomeOf_ne_refused
  · exact outcomeOf_ne_refused
  · exact outcomeOf_ne_refused
  · exact outcomeOf_ne_refused
  · exact outcomeOf_ne_refused
  · nofun
  · nofun

theorem idleMove_ne_refused (s : State) (r : Refusal) : idleMove s ≠ .refused r := by
  unfold idleMove
  split
  · nofun
  · exact runWord_ne_refused _ _ _
  · nofun
  · nofun
  · exact hostStore_ne_refused _ _ _ _
  · nofun

theorem respondingMove_ne_refused (waiting : Response) (s : State) (r : Refusal) :
    respondingMove waiting s ≠ .refused r := by
  unfold respondingMove
  split
  · nofun
  · nofun
  · nofun
  · nofun
  · exact hostStore_ne_refused _ _ _ _
  · nofun

theorem busyMove_ne_refused (s : State) (r : Refusal) : busyMove s ≠ .refused r := by
  unfold busyMove
  split
  · nofun
  · exact finish_ne_refused s r

/-- No step is refused, whatever the engine is doing. -/
theorem step_ne_refused (s : State) (r : Refusal) : step s ≠ .refused r := by
  unfold step advance
  split
  · exact idleMove_ne_refused s r
  · exact respondingMove_ne_refused _ s r
  · exact busyMove_ne_refused s r

/-! ## The host's next move (R40, R123, R124) -/

section
variable {s : State} {rest : List Move}

/-- An idle engine runs the word that the host sends next. -/
theorem step_of_send {w : CmdWord} (hp : s.phase = .idle) (hplan : s.plan = .send w :: rest) :
    step s = runWord w (s.setPlan rest) := by
  simp only [step, advance, hp, idleMove, hplan]

/-- The response that waits is delivered when the host takes it next. -/
theorem step_of_take {r : Response} (hp : s.phase = .responding r) (hplan : s.plan = .take :: rest) :
    step s = .next (takeResponse r (s.setPlan rest)) := by
  simp only [step, advance, hp, respondingMove, hplan]

/-- Between commands the host's next store is performed, also while a response waits. -/
theorem step_of_store {a : Addr} {v : Byte} (hb : s.atBoundary = true) (hplan : s.plan = .store a v :: rest) :
    step s = hostStore a v (s.setPlan rest) := by
  obtain hp | ⟨r, hp⟩ := atBoundary_cases hb
  · simp only [step, advance, hp, idleMove, hplan]
  · simp only [step, advance, hp, respondingMove, hplan]

/-- An idle engine answers an illegal word with IllegalCommand. -/
theorem step_of_illegal {w : CmdWord} {e : Illegal} (hp : s.phase = .idle) (hplan : s.plan = .send w :: rest)
    (hd : decode w = .error e) : step s = .next (raiseIllegal (s.setPlan rest)) := by
  rw [step_of_send hp hplan, runWord_of_illegal hd]

end

/-- Settles O33, clause by clause. -/
theorem onlyContractViolationsStop : Obligations.OnlyContractViolationsStop := by
  unfold Obligations.OnlyContractViolationsStop
  refine ⟨fun i s f h => ?_, fun i s f h => ?_, step_ne_refused,
    fun c a h => h.elim backed_of_readable backed_of_writable, fun s a v rest hb hplan => ?_⟩
  · obtain ⟨initial, length, ptr, hi, hwhy⟩ | ⟨ptr, hi, hwhy⟩ := exec_fault_cases h
    · exact hwhy.imp_right fun hread => .inl ⟨initial, length, ptr, hi, hread⟩
    · exact hwhy.imp_right fun hwrite => .inr ⟨ptr, hi, hwrite⟩
  · obtain ⟨initial, length, ptr, hi, _⟩ | ⟨ptr, hi, _⟩ := exec_fault_cases h
    · exact .inl ⟨initial, length, ptr, hi⟩
    · exact .inr ⟨ptr, hi⟩
  · rw [step_of_store hb hplan]
    rfl

/-! ## An illegal word (R96, R102) -/

/-- Settles O36: the state of IllegalCommand, written out field by field. -/
theorem stepAnswersAnIllegalWord : Obligations.StepAnswersAnIllegalWord := by
  unfold Obligations.StepAnswersAnIllegalWord
  intro s w rest e hp hplan hd
  exact step_of_illegal hp hplan hd

/-- Settles O37: the word changes the phase and the plan only, and taking the response makes the engine idle again. -/
theorem illegalWordLeavesNoTrace : Obligations.IllegalWordLeavesNoTrace := by
  unfold Obligations.IllegalWordLeavesNoTrace
  intro s w rest hp hplan hw
  obtain ⟨e, hd⟩ := legal_eq_false_iff_decode.mp hw
  refine ⟨_, step_of_illegal hp hplan hd, ?_⟩
  rw [step_of_take (raiseIllegal_phase _) (raiseIllegal_plan _), hp]
  rfl

end Sys2Proof.Machine
end

section
/-! SUPPORT. The host's contract at the command level (spec/70_reset_and_hazards.md R114, R115, R123, R124): what the next step
is for each of the host's moves, which response a step delivers, and that the memory commands need a drained port. -/

namespace Sys2Proof.Machine

/-! ## The host's next move (R114, R123, R124, R126) -/

section
variable {s : State} {rest : List Move}

/-- An idle engine executes the command that the host sends next. -/
theorem step_of_send_command {w : CmdWord} {i : Instr} (hp : s.phase = .idle) (hplan : s.plan = .send w :: rest)
    (hd : decode w = .ok i) : step s = exec i (s.setPlan rest) := by
  rw [step_of_send hp hplan, runWord_of_ok hd]

/-- A reset abandons whatever the engine is doing. -/
theorem step_of_reset (hplan : s.plan = .reset :: rest) : step s = .next (applyReset (s.setPlan rest)) := by
  unfold step advance
  split
  · simp only [idleMove, hplan]
  · simp only [respondingMove, hplan]
  · simp only [busyMove, hplan]

/-- Between commands a move that cannot happen yet is held, and the step changes nothing (log 14). -/
theorem step_of_moveHeld (hb : s.atBoundary = true) (hheld : s.moveHeld) : step s = .next s := by
  obtain hp | ⟨r, hp⟩ := atBoundary_cases hb
  · obtain hplan | ⟨_, _, hplan⟩ | ⟨hbusy, _⟩ := hheld
    · simp only [step, advance, hp, idleMove, hplan]
    · simp only [step, advance, hp, idleMove, hplan]
    · exact absurd hp hbusy
  · obtain hplan | ⟨hidle, _⟩ | ⟨_, _, _, hplan⟩ := hheld
    · simp only [step, advance, hp, respondingMove, hplan]
    · rw [hp] at hidle
      cases hidle
    · simp only [step, advance, hp, respondingMove, hplan]

end

/-- Settles O35: the word decodes to the command that runs. -/
theorem stepRunsTheDecodedCommand : Obligations.StepRunsTheDecodedCommand := by
  unfold Obligations.StepRunsTheDecodedCommand
  intro s w rest i hp hplan hd
  exact step_of_send_command hp hplan hd

theorem decode_tableWord {nbits w : Nat} {i : Instr} (h : decodeTableWord nbits w = some i) :
    decode (tableWord nbits w) = .ok i := by
  unfold decodeTableWord at h
  split at h
  · next hd => rw [hd, Option.some.inj h]
  · cases h

@[simp] theorem makeIdle_plan (s : State) : (makeIdle s).plan = s.plan := by
  unfold makeIdle
  split <;> rfl

/-- Settles O38: the word is offered to an idle engine before the rest of its plan, which is left when it runs. -/
theorem fetchWordRunsNext : Obligations.FetchWordRunsNext := by
  unfold Obligations.FetchWordRunsNext
  intro s nbits w i hd
  have hidle : (s.withFetchWord nbits w).phase = .idle := makeIdle_phase s
  have hrest : (s.withFetchWord nbits w).setPlan s.plan = makeIdle s := by
    rw [← makeIdle_plan s]
    rfl
  rw [step_of_send_command hidle rfl (decode_tableWord hd), hrest]

/-- Settles O39: the state with the response delivered, written out field by field. -/
theorem responseIsTaken : Obligations.ResponseIsTaken := by
  unfold Obligations.ResponseIsTaken
  intro s r rest hp hplan
  exact step_of_take hp hplan

/-- Settles O40: each of the four moves is one that cannot happen yet. -/
theorem stepWaitsForTheHost : Obligations.StepWaitsForTheHost := by
  unfold Obligations.StepWaitsForTheHost
  refine ⟨fun s r w rest hp hplan => ?_, fun s rest hp hplan => ?_⟩
  · have hbusy : s.phase ≠ .idle := by simp [hp]
    exact step_of_moveHeld (atBoundary_of_responding hp) (hplan.imp_right fun h => .inr ⟨hbusy, w, rest, h⟩)
  · exact step_of_moveHeld (atBoundary_of_idle hp) (hplan.imp_right fun h => .inl ⟨hp, rest, h⟩)

/-- Settles O41: the state with the reset applied, written out field by field. -/
theorem resetStep : Obligations.ResetStep := by
  unfold Obligations.ResetStep
  intro s rest hplan
  exact step_of_reset hplan

/-! ## Which response a step delivers (R124) -/

theorem complete_responses (s : State) : (complete s).responses = s.responses := by
  obtain ⟨_, _, _, _, _, hresp⟩ := complete_frame s
  exact hresp

theorem finishBuffer_responses {n : Nat} {a : Addr} {s t : State} (h : finishBuffer n a s = .ok t) :
    t.responses = s.responses := by
  obtain ⟨_, rfl⟩ := finishBuffer_ok h
  rfl

theorem storeHigh_responses {ptr : Addr} {s t : State} (h : storeHigh ptr s = .ok t) :
    t.responses = s.responses := by
  obtain ⟨_, _, rfl⟩ := storeHigh_ok_iff.mp h
  rfl

theorem runWord_responses {w : CmdWord} {s t : State} (h : runWord w s = .next t) : t.responses = s.responses := by
  obtain ⟨_, _, _, _, hresp⟩ := runWord_phase h
  exact hresp

/-- Carrying a command to its end delivers no response, whatever memory holds. -/
theorem finish_responses {s t : State} (h : finish s = .next t) : t.responses = s.responses := by
  unfold finish at h
  split at h
  · cases h; rfl
  · exact runWord_responses h
  · cases h; rfl
  · exact finishBuffer_responses (outcomeOf_next.mp h)
  · exact (finishBuffer_responses (outcomeOf_next.mp h)).trans (complete_responses s)
  · exact (finishBuffer_responses (outcomeOf_next.mp h)).trans (setAcc_responses s _)
  · obtain ⟨_, _, _, rfl⟩ := storeBoth_ok_iff.mp (outcomeOf_next.mp h)
    rfl
  · exact storeHigh_responses (outcomeOf_next.mp h)
  · exact (storeHigh_responses (outcomeOf_next.mp h)).trans (complete_responses s)
  · cases h; exact complete_responses s
  · cases h; rfl

/-- Settles O51: of the ways a step can go, only the taking of a response delivers one. -/
theorem responsesAreDeliveredInOrder : Obligations.ResponsesAreDeliveredInOrder := by
  unfold Obligations.ResponsesAreDeliveredInOrder
  intro s t h
  cases step_cases h with
  | word _ _ hw => exact .inl ((runWord_responses hw).trans (setPlan_responses s _))
  | taken hp hplan => exact .inr ⟨_, _, hp, hplan, rfl, rfl⟩
  | reset => exact .inl rfl
  | hostStored => exact .inl rfl
  | drained => exact .inl (complete_responses _)
  | held => exact .inl rfl
  | finished _ _ hf => exact .inl (finish_responses hf)

/-! ## The drained port (R115) -/

/-- CALCULATE's loop faults at its first read while an access is in flight. -/
theorem finishBuffer_busy {n : Nat} {a : Addr} {b : Access} {s : State} (hb : s.bus = some b) (hn : 0 < n) :
    finishBuffer n a s = .error .notDrained := by
  obtain ⟨k, rfl⟩ := Nat.exists_eq_succ_of_ne_zero hn.ne'
  rw [finishBuffer_succ, request_busy hb]

/-- RESULT_ARRAY faults at its first write while an access is in flight. -/
theorem storeBoth_busy {ptr : Addr} {b : Access} {s : State} (hb : s.bus = some b) :
    storeBoth ptr s = .error .notDrained := by
  rw [storeBoth, memWrite, request_busy hb]

/-- Settles O32: both commands fault at the request of their first access. -/
theorem memoryCommandsNeedADrainedPort : Obligations.MemoryCommandsNeedADrainedPort := by
  unfold Obligations.MemoryCommandsNeedADrainedPort
  intro s a hb
  refine ⟨fun initial length ptr hl => ?_, fun ptr => ?_⟩
  · rw [exec, execCalculate, finishBuffer_busy (s := s.setAcc (zextInitial initial)) hb (length_pos hl)]
    rfl
  · rw [exec, execResultArray, storeBoth_busy hb]
    rfl

end Sys2Proof.Machine
end

section
/-! SUPPORT. Reset and hazards at the clock-edge level (spec/70_reset_and_hazards.md R114 to R116, R121, R123, R126): what
an edge with reset leaves, where the engine waits, when it takes a word, and the order of RESULT_ARRAY's two bytes. -/

namespace Sys2Proof.Machine

/-! ## An edge with reset (R114 to R116) -/

/-- After a reset the engine offers nothing, and it is ready for a word unless `rst` is still 1. -/
theorem outs_applyReset (rst : Bool) (s : State) :
    outs rst (applyReset s) = { cmdReady := !rst, rsp := none, memReq := none } := by
  simp [outs, State.offered, State.offeredResponse]

theorem memoryEdge_of_no_completion {p : Pins} (s : State) (hv : p.memRspValid = false) : memoryEdge p s = s := by
  simp [memoryEdge, hv]

theorem memoryEdge_of_completion {p : Pins} (s : State) (hv : p.memRspValid = true) :
    memoryEdge p s = complete s := by
  simp [memoryEdge, hv]

/-- Settles O55: the reset is applied after the memory's side of the edge, which only the access in flight can use. -/
theorem resetEdge : Obligations.ResetEdge := by
  unfold Obligations.ResetEdge
  intro p s hr
  obtain ⟨hcfg, _, _, haccesses, _, hresp, _⟩ := memoryEdge_frame p s
  refine ⟨_, edge_of_reset s hr, congrArg Config.initialValue hcfg, rfl, hcfg, hresp, haccesses,
    outs_applyReset true _, outs_applyReset false _, fun hv => ?_, fun hv => ?_⟩
  · rw [memoryEdge_of_no_completion s hv]
    exact ⟨rfl, rfl⟩
  · rw [memoryEdge_of_completion s hv]
    refine ⟨complete_bus s, ?_⟩
    cases hb : s.bus with
    | none => rw [complete_none hb]; rfl
    | some a =>
      rw [complete_some hb]
      cases a with
      | read _ => rfl
      | write _ _ => rfl

/-! ## Waiting, and taking a word (R123, R126) -/

/-- An edge without reset leaves the engine where it is exactly when the engine waits. -/
theorem edge_phase_eq_iff_waitsAt {p : Pins} {s t : State} (hr : p.rst = false) (h : edge p s = .next t) :
    t.phase = s.phase ↔ waitsAt p s := by
  obtain ⟨_, _, hphase, _⟩ := memoryEdge_frame p s
  rw [← waitsAt_memoryEdge, ← hphase]
  have hengine := engineEdge_ok ((edge_next hr).mp h)
  obtain ⟨hw, rfl⟩ | ⟨hw, _, _, _, _, _, _, rfl, _, _, hmoved⟩ | ⟨hw, hi⟩ := hengine
  · exact iff_of_true rfl hw
  · exact iff_of_false hmoved hw
  · exact iff_of_false hi.moved hw

/-- Settles O56: the places are those of `waitsAt`. -/
theorem engineWaitsInThreePlaces : Obligations.EngineWaitsInThreePlaces := by
  unfold Obligations.EngineWaitsInThreePlaces
  intro p s t hr h
  exact edge_phase_eq_iff_waitsAt hr h

/-- Only an idle engine looks at the command channel. -/
theorem engineEdge_of_busy {p : Pins} {s : State} (valid : Bool) (w : CmdWord) (hbusy : s.phase ≠ .idle) :
    engineEdge { p with cmdValid := valid, cmdWord := w } s = engineEdge p s := by
  unfold engineEdge
  split
  · next hp => exact absurd hp hbusy
  all_goals rfl

/-- `cmd_ready` is 1 exactly when the engine is idle and not in reset. -/
theorem outs_cmdReady_iff (rst : Bool) (s : State) :
    (outs rst s).cmdReady = true ↔ s.phase = .idle ∧ rst = false := by
  simp [outs]

/-- Settles O60: neither side of the edge of a busy engine looks at the command channel. -/
theorem busyEngineAcceptsNoCommand : Obligations.BusyEngineAcceptsNoCommand := by
  unfold Obligations.BusyEngineAcceptsNoCommand
  refine ⟨outs_cmdReady_iff, fun p s valid w hbusy => ?_⟩
  have hbusy' : (memoryEdge p s).phase ≠ .idle := by rwa [(memoryEdge_frame p s).2.2.1]
  unfold edge
  rw [← engineEdge_of_busy valid w hbusy']
  rfl

/-! ## The order of RESULT_ARRAY's bytes (R121, 93 U5) -/

/-- The engine's side of an edge leaves memory to the memory's side. -/
theorem edge_mem {p : Pins} {s t : State} (hr : p.rst = false) (h : edge p s = .next t) :
    t.mem = (memoryEdge p s).mem := by
  obtain ⟨_, rfl⟩ | ⟨_, _, _, _, _, _, _, rfl, _⟩ | ⟨_, hi⟩ := engineEdge_ok ((edge_next hr).mp h)
  · rfl
  · rfl
  · exact hi.mem

/-- A completion changes only the byte of a write in flight. -/
theorem complete_read_of_ne {s : State} {a : Addr} (ha : ∀ v, s.bus ≠ some (.write a v)) :
    (complete s).mem.read a = s.mem.read a := by
  cases hb : s.bus with
  | none => rw [complete_none hb]
  | some b =>
    rw [complete_some hb]
    cases b with
    | read _ => rfl
    | write c v =>
      refine Memory.read_write_other _ _ ?_
      rintro rfl
      exact ha v hb

/-- An edge without reset changes only the byte of a write in flight. -/
theorem edge_read_of_ne {p : Pins} {s t : State} {a : Addr} (hr : p.rst = false) (h : edge p s = .next t)
    (ha : ∀ v, s.bus ≠ some (.write a v)) : t.mem.read a = s.mem.read a := by
  rw [edge_mem hr h]
  cases hv : p.memRspValid with
  | false => rw [memoryEdge_of_no_completion s hv]
  | true => rw [memoryEdge_of_completion s hv, complete_read_of_ne ha]

section
variable {p : Pins} {s t : State} {ptr : Addr}

theorem offered_of_writeRequest {o : OutByte} (hp : s.phase = .writeRequest ptr o) :
    s.offered = some (.write (outAddr ptr o) (outValue s.acc o)) := by
  simp only [State.offered, hp]

theorem awaited_of_writeWait {o : OutByte} (hp : s.phase = .writeWait ptr o) :
    s.awaited = some (.write (outAddr ptr o) (outValue s.acc o)) := by
  simp only [State.awaited, hp]

/-- The write that RESULT_ARRAY waits for is the access in flight. -/
theorem bus_of_writeWait {o : OutByte} (hinv : s.inv = true) (hp : s.phase = .writeWait ptr o) :
    s.bus = some (.write (outAddr ptr o) (outValue s.acc o)) := by
  obtain ⟨_, _, hbus, _⟩ := (inv_iff s).mp hinv
  exact hbus _ (awaited_of_writeWait hp)

/-- With no access abandoned, RESULT_ARRAY at one of its bytes has no write in flight but that byte's. -/
theorem edge_read_of_ne_outAddr {o : OutByte} {a : Addr} (hinv : s.inv = true) (hd : s.drained = true)
    (hr : p.rst = false) (h : edge p s = .next t) (hp : s.phase = .writeRequest ptr o ∨ s.phase = .writeWait ptr o)
    (ha : a ≠ outAddr ptr o) : t.mem.read a = s.mem.read a := by
  refine edge_read_of_ne hr h fun v hb => ?_
  obtain hp | hp := hp
  · rw [bus_none_of_drained hd (by simp only [State.awaited, hp])] at hb
    cases hb
  · rw [bus_of_writeWait hinv hp] at hb
    cases hb
    exact ha rfl

/-- An offered access that is taken is the one the engine then waits for. -/
theorem awaited_of_taken_offer {a : Access} (hr : p.rst = false) (h : edge p s = .next t) (ho : s.offered = some a)
    (hw : ¬ waitsAt p s) : t.awaited = some a := by
  rw [← waitsAt_memoryEdge] at hw
  rw [← (offered_memoryEdge p s).1] at ho
  obtain ⟨hwait, _⟩ | ⟨_, b, _, hb, _, _, _, _, _, haw, _⟩ | ⟨_, hi⟩ := engineEdge_ok ((edge_next hr).mp h)
  · exact absurd hwait hw
  · rw [haw, ← hb, ho]
  · rw [hi.offered] at ho
    cases ho

/-- The high byte comes to be offered only where the low byte's write completes. -/
theorem low_completed_of_high_offered (hr : p.rst = false) (h : edge p s = .next t)
    (hp : s.phase = .writeRequest ptr .low ∨ s.phase = .writeWait ptr .low)
    (ht : t.phase = .writeRequest ptr .high) : s.phase = .writeWait ptr .low ∧ p.memRspValid = true := by
  have hw : ¬ waitsAt p s := by
    rw [← edge_phase_eq_iff_waitsAt hr h, ht]
    obtain hp | hp := hp <;> simp [hp]
  obtain hp | hp := hp
  · have haw := awaited_of_taken_offer hr h (offered_of_writeRequest hp) hw
    simp only [State.awaited, ht, reduceCtorEq] at haw
  · rw [waitsAt_of_awaited (awaited_of_writeWait hp), Bool.not_eq_false] at hw
    exact ⟨hp, hw⟩

/-- When the high byte comes to be offered, the low byte is in memory and `ACC` as it was. -/
theorem low_landed_of_high_offered (hinv : s.inv = true) (hr : p.rst = false) (h : edge p s = .next t)
    (hp : s.phase = .writeRequest ptr .low ∨ s.phase = .writeWait ptr .low)
    (ht : t.phase = .writeRequest ptr .high) : t.mem.read ptr = lowByte s.acc ∧ t.acc = s.acc := by
  obtain ⟨hp, hv⟩ := low_completed_of_high_offered hr h hp ht
  obtain ⟨hm, _⟩ := (inv_iff s).mp hinv
  rw [edge_of_write_completion hr hp hv, complete_some (bus_of_writeWait hinv hp)] at h
  cases h
  exact ⟨Memory.read_write_same ptr _ hm, rfl⟩

end

/-- Settles O59: the only write in flight is the one RESULT_ARRAY is at, and the high byte follows the low byte's
completion. -/
theorem lowByteLandsFirst : Obligations.LowByteLandsFirst := by
  unfold Obligations.LowByteLandsFirst
  intro p ptr s t hinv hd hr h
  exact ⟨fun hp => ⟨fun _ => edge_read_of_ne_outAddr hinv hd hr h hp, low_landed_of_high_offered hinv hr h hp⟩,
    fun hp _ => edge_read_of_ne_outAddr hinv hd hr h hp⟩

end Sys2Proof.Machine
end
